-- ==== Sys2Proof/Word.lean ====
section
/-! DEFINITION. The two bit-vector types of the e16b CORE: the 16-bit word of every register and memory cell (spec/00_scope.md R10, R16) and the 8-bit opcode and operand fields. -/

namespace Sys2Proof

/-- "The fixed-width unsigned storage unit (16 bits) used for every register, memory cell, and flags register" (R16). -/
abbrev Word := BitVec 16

/-- An 8-bit field of an instruction word: the opcode or the operand (R10, R70). -/
abbrev Byte := BitVec 8

end Sys2Proof
end

