-- ==== Sys2Proof/Config.lean ====
section
/-! DEFINITION. The implementation parameters of spec/00_scope.md R10 that are not already the width of a type. -/

namespace Sys2Proof

/-- `ROM_WORDS`: 128 instruction words, addresses 0..127 (R10, R51). -/
def Config.romWords : Nat := 128

/-- `RAM_WORDS`: 128 data words, addresses 0..127 (R10, R52). -/
def Config.ramWords : Nat := 128

/-- `RESET_PC`: 0 (R10, R39). -/
def Config.resetPc : Word := 0

/-- The default of `OUT_DELAY_MS`, 100 (R10, R252). -/
def Config.defaultOutDelayMs : Nat := 100

/-- `OUT_DELAY_MS` as configured on this machine: a parameter no rule reads (R10, R252), so it has no
body and no claim can rest on its value.  Log entry 19. -/
opaque Config.outDelayMs : Nat

end Sys2Proof
end

