-- ==== Sys2Proof/Syntax.lean ====
section
/-! DEFINITION. The 14 instructions of spec/opcode_table.json (30_encoding.md R75), one constructor a row. -/

namespace Sys2Proof

/-- One instruction of the e16b CORE.  An operand is the 8-bit low byte of the word (R70).  NOP, OUT
and HLT carry none: "any value in `instr[7:0]` gives the same instruction" (R76; log entry 15).  SUB
and ADR carry the operand the assembler requires of them, which execution ignores (R77). -/
inductive Instr where
  /-- 0x00, no operation (R180). -/
  | nop
  /-- 0x01, load accumulator from RAM (R120). -/
  | lda (n : Byte)
  /-- 0x02, store accumulator to RAM (R123). -/
  | sta (n : Byte)
  /-- 0x03, add a RAM word to the accumulator (R142). -/
  | add (n : Byte)
  /-- 0x04, reserved, executes as no operation (R144). -/
  | sub (n : Byte)
  /-- 0x05, output the accumulator (R181). -/
  | out
  /-- 0x06, unconditional jump (R160). -/
  | jmp (n : Byte)
  /-- 0x07, jump if Carry (R161). -/
  | jc (n : Byte)
  /-- 0x08, jump if Zero (R162). -/
  | jz (n : Byte)
  /-- 0x0A, halt (R183). -/
  | hlt
  /-- 0x10, load accumulator with an immediate (R122). -/
  | ldi (n : Byte)
  /-- 0x11, add an immediate to the accumulator (R143). -/
  | adi (n : Byte)
  /-- 0x20, load accumulator from ROM (R121). -/
  | ldr (n : Byte)
  /-- 0x21, reserved, executes as no operation (R145). -/
  | adr (n : Byte)
deriving DecidableEq, Repr

end Sys2Proof
end

