-- ==== Sys2Proof/WellFormed.lean ====
section
/-! DEFINITION. Static checks: on an instruction (its type leaves nothing to refuse) and on the ROM image the machine is given (spec/92_eei_decisions.md D9: a launch parameter of 128 words). -/

namespace Sys2Proof

/-- Every term of `Instr` is a well-formed instruction: the one static condition the spec puts on one is
that its operand is "in [0, 255]" (R83, R88), which the 8-bit operand type already says.  An operand
of 128 or more is well formed; it faults when run, if at all (R56, R77). -/
def Instr.wellFormed : Instr → Bool
  | .nop => true
  | .lda _ => true
  | .sta _ => true
  | .add _ => true
  | .sub _ => true
  | .out => true
  | .jmp _ => true
  | .jc _ => true
  | .jz _ => true
  | .hlt => true
  | .ldi _ => true
  | .adi _ => true
  | .ldr _ => true
  | .adr _ => true

/-- A ROM image is `FixedArray<Word, 128>` (R80): exactly `ROM_WORDS` words (R51, D9).  "An image given
directly may hold any words", so the words themselves are not checked. -/
def romImageWellFormed (image : List Word) : Bool :=
  image.length == Config.romWords

end Sys2Proof
end

