-- ==== Sys2Proof/Decode.lean ====
section
/-! DEFINITION. The one instruction format OP8 and the opcode map of spec/30_encoding.md (R70-R79): the decoder, total on words and rejecting by name, and after it the encoder. -/

namespace Sys2Proof

/-- `instr[15:8]`, the opcode (R70, R72). -/
def opcodeField (w : Word) : Byte := w.extractLsb' 8 8

/-- `instr[7:0]`, the operand (R70, R72). -/
def operandField (w : Word) : Byte := w.extractLsb' 0 8

/-- `(opcode << 8) | operand` (R70, R84): the opcode in the high byte, the operand in the low byte. -/
def instrWord (opcode operand : Byte) : Word := opcode ++ operand

/-- A mnemonic or any other token of program text, as its characters. -/
abbrev Token := List Char

/-- One row of the opcode map (R75). -/
structure OpcodeRow where
  /-- The value of `instr[15:8]` that selects the row. -/
  opcode : Byte
  /-- The mnemonic, letter for letter. -/
  mnemonic : Token
  /-- "Assembler takes an operand". -/
  takesOperand : Bool
  /-- The instruction of the row with a given operand byte; a row that ignores its operand drops it (R76). -/
  build : Byte → Instr

/-- The opcode map, rows in the table's order (R75, R103). -/
def opcodeMap : List OpcodeRow :=
  [ ⟨0x00, ['N', 'O', 'P'], false, fun _ => .nop⟩,
    ⟨0x01, ['L', 'D', 'A'], true, .lda⟩,
    ⟨0x02, ['S', 'T', 'A'], true, .sta⟩,
    ⟨0x03, ['A', 'D', 'D'], true, .add⟩,
    ⟨0x04, ['S', 'U', 'B'], true, .sub⟩,
    ⟨0x05, ['O', 'U', 'T'], false, fun _ => .out⟩,
    ⟨0x06, ['J', 'M', 'P'], true, .jmp⟩,
    ⟨0x07, ['J', 'C'], true, .jc⟩,
    ⟨0x08, ['J', 'Z'], true, .jz⟩,
    ⟨0x0A, ['H', 'L', 'T'], false, fun _ => .hlt⟩,
    ⟨0x10, ['L', 'D', 'I'], true, .ldi⟩,
    ⟨0x11, ['A', 'D', 'I'], true, .adi⟩,
    ⟨0x20, ['L', 'D', 'R'], true, .ldr⟩,
    ⟨0x21, ['A', 'D', 'R'], true, .adr⟩ ]

/-- The row an opcode byte selects, if the map has one. -/
def opcodeRow? (opcode : Byte) : Option OpcodeRow :=
  opcodeMap.find? fun row => decide (row.opcode = opcode)

/-- Why a word is no instruction. -/
inductive DecodeError where
  /-- The opcode byte is outside the map (R78); the cycle raises IllegalOpcode for it (R203). -/
  | undefinedOpcode (opcode : Byte)
deriving DecidableEq, Repr

/-- The decoder: split the word (R72) and let the opcode alone select the row (R75).  Total on all
65536 words; an opcode outside the map is rejected by name (R78). -/
def decode (w : Word) : Except DecodeError Instr :=
  match opcodeRow? (opcodeField w) with
  | some row => .ok (row.build (operandField w))
  | none => .error (.undefinedOpcode (opcodeField w))

/-- The opcode byte of an instruction (R75). -/
def opcodeOf : Instr → Byte
  | .nop => 0x00
  | .lda _ => 0x01
  | .sta _ => 0x02
  | .add _ => 0x03
  | .sub _ => 0x04
  | .out => 0x05
  | .jmp _ => 0x06
  | .jc _ => 0x07
  | .jz _ => 0x08
  | .hlt => 0x0A
  | .ldi _ => 0x10
  | .adi _ => 0x11
  | .ldr _ => 0x20
  | .adr _ => 0x21

/-- The operand byte the assembler writes for an instruction: its operand, or "0 for no-operand
instructions" (R84). -/
def operandOf : Instr → Byte
  | .nop => 0
  | .lda n => n
  | .sta n => n
  | .add n => n
  | .sub n => n
  | .out => 0
  | .jmp n => n
  | .jc n => n
  | .jz n => n
  | .hlt => 0
  | .ldi n => n
  | .adi n => n
  | .ldr n => n
  | .adr n => n

/-- The encoder: the one word of an instruction (R70, R84). -/
def encode (i : Instr) : Word := instrWord (opcodeOf i) (operandOf i)

/-- The words a successful assembly can produce: an opcode of the map, and operand byte 0 for NOP, OUT
and HLT (R93, last paragraph). -/
def isAssembledWord (w : Word) : Bool :=
  match decode w with
  | .ok i => decide (encode i = w)
  | .error _ => false

/-- The instruction word of a row of opcode_table.json whose `nbits` low bits are those of `w`: bits
above `nbits` are 0, and every instruction is one 16-bit word (R71).  Log entry 23. -/
def tableWord (nbits w : Nat) : Word := BitVec.ofNat 16 (w % 2 ^ nbits)

/-- The instruction this decoder reads from a table word; `none` where it rejects it. -/
def decodeTableWord (nbits w : Nat) : Option Instr :=
  match decode (tableWord nbits w) with
  | .ok i => some i
  | .error _ => none

end Sys2Proof
end

