-- ==== Sys2Proof/Machine/State.lean ====
section
/-! DEFINITION. The state of the e16b CORE, element by element as spec/10_state.md R20 lists it, the reasons a step can stop, and the state after reset (R39, 70_reset_and_hazards.md R240). -/

namespace Sys2Proof.Machine

/-- The three meaningful bits of the 16-bit Flags word (R26), held as three booleans as R27 allows; the
word itself, with bits 15:3 hard-wired 0, is the view `Flags.word` of Machine/Flags.lean.  Log entry 11. -/
structure Flags where
  /-- Carry (R28). -/
  c : Bool
  /-- Zero (R29). -/
  z : Bool
  /-- JumpPending (R30). -/
  j : Bool
deriving DecidableEq, Repr

/-- The engine's run state (R36, 40_engine.md R107). -/
inductive RunState where
  /-- A cycle may be taken. -/
  | running
  /-- Entered by HLT; terminal. -/
  | halted
  /-- Entered by any runtime fault; terminal. -/
  | faulted
deriving DecidableEq, Repr

/-- The causes of a runtime fault (60_exceptions.md R200, R204). -/
inductive FaultCause where
  /-- A ROM or RAM access whose index is 128 or more (R201). -/
  | addressFault
  /-- A fetched word whose opcode byte is outside the opcode map (R203). -/
  | illegalOpcode
deriving DecidableEq, Repr

/-- The access kinds of R202; a record's `none` access is the option's `none`. -/
inductive AccessKind where
  | fetch
  | romRead
  | ramRead
  | ramWrite
deriving DecidableEq, Repr

/-- The fault record (60_exceptions.md R204). -/
structure FaultRecord where
  /-- 1 for AddressFault, 2 for IllegalOpcode: see `FaultCause.code`. -/
  cause : FaultCause
  /-- The access kind; none for IllegalOpcode. -/
  access : Option AccessKind
  /-- The offending address, present for AddressFault. -/
  address : Option Word
  /-- The PC of the faulting cycle. -/
  pc : Word
  /-- The opcode being executed, absent for a fetch fault. -/
  opcode : Option Byte
deriving DecidableEq, Repr

/-- What a bounds-checked memory access answers: its result, or "raise AddressFault(addr)"
(20_memory.md R53-R55). -/
inductive Access (α : Type) where
  | done (v : α)
  | addressFault (addr : Word)
deriving DecidableEq, Repr

/-- Reasons for a step to end outside the machine's states.  There are none, so this type is empty: the
spec gives every runtime fault of the CORE a next state (run = Faulted and the record in `fault`,
60_exceptions.md R205), which the model takes.  Raised by nobody; safe.  Log entry 4. -/
inductive Fault
deriving DecidableEq, Repr

/-- Reasons for the model to answer nothing. -/
inductive Refusal where
  /-- An instruction without a meaning yet, rejected by name in `exec`; no arm does so now.  Safe: the
  model stops where the hardware goes on. -/
  | notModelled (mnemonic : String)
deriving DecidableEq, Repr

/-- The state of the CORE: "exactly these elements" (R20). -/
structure State where
  /-- The accumulator (R21). -/
  regA : Word
  /-- The ALU's second operand and the pending jump target (R22). -/
  regB : Word
  /-- The program counter: a ROM word address (R24, R25). -/
  pc : Word
  /-- Carry, Zero and JumpPending (R26-R32). -/
  flags : Flags
  /-- Instruction memory, 128 words (20_memory.md R51), as byte cells: word `a` is cells `2a`, `2a+1`.
  Log entry 1. -/
  rom : List Host.Cell
  /-- Data memory, 128 words (20_memory.md R52), in the same form. -/
  ram : List Host.Cell
  /-- The values OUT has emitted since reset, oldest first (R35). -/
  out : List Word
  /-- The engine's run state (R36). -/
  run : RunState
  /-- The fault record, once a fault has been raised (R37). -/
  fault : Option FaultRecord
deriving DecidableEq, Repr

/-- The state right after reset (R39, R240), with the ROM image of an empty program: every ROM and RAM
word 0, so neither memory lists a cell.  regA = regB = 0 is the spec's decision D2 (log entry 3).  A
program is loaded from outside (`State.powerOn`, log entry 12). -/
def State.reset : State where
  regA := 0
  regB := 0
  pc := Config.resetPc
  flags := ⟨false, false, false⟩
  rom := []
  ram := []
  out := []
  run := .running
  fault := none

end Sys2Proof.Machine
end

