-- ==== Sys2Proof/Machine/Flags.lean ====
section
/-! DEFINITION. The ALU (spec/42_arithmetic.md R140) and the Flags word (10_state.md R26-R32): every flag computation the spec gives. -/

namespace Sys2Proof.Machine

/-- The carry rule, verbatim: "carry is flagged only when `a > 0` and `b > 0xFFFF - a`", on integers
(R140, 00_scope.md R12). -/
def aluCarry (a b : Word) : Bool :=
  decide (a.toNat > 0) && decide (b.toNat > 0xFFFF - a.toNat)

/-- The zero rule: the wrapped result is 0 (R140). -/
def aluZero (r : Word) : Bool := decide (r = 0)

/-- `(a + b) mod 2^16` (R140). -/
def aluSum (a b : Word) : Word := a + b

/-- `Alu.add(a, b)`: the wrapped sum, and the flags with C and Z cleared and set anew and J kept (R140). -/
def aluAdd (a b : Word) (f : Flags) : Word × Flags :=
  (aluSum a b, { f with c := aluCarry a b, z := aluZero (aluSum a b) })

/-- The 16-bit Flags word: C is bit 0, Z bit 1, J bit 2 and "remaining bits always zero" (R26, R27, R32). -/
def Flags.word (f : Flags) : Word :=
  (0 : BitVec 13) ++ BitVec.ofBool f.j ++ BitVec.ofBool f.z ++ BitVec.ofBool f.c

end Sys2Proof.Machine
end

