-- ==== Sys2Proof/Machine/Operands.lean ====
section
/-! DEFINITION. Operand assembly (spec/30_encoding.md R73, R74): every operand form is the zero extension of the 8-bit operand field. -/

namespace Sys2Proof.Machine

/-- `zext_16(v)`: "the value is unchanged, bits 15:8 become 0" (00_scope.md R13). -/
def zext16 (v : Byte) : Word := v.setWidth 16

/-- RAM address form: LDA, STA, ADD (R73; absolute direct, 41_load_store.md R124). -/
def ramAddress (operand : Byte) : Word := zext16 operand

/-- ROM address form: LDR (R73; absolute direct, R124). -/
def romAddress (operand : Byte) : Word := zext16 operand

/-- Immediate form: LDI, ADI (R73, R124). -/
def immediate (operand : Byte) : Word := zext16 operand

/-- Jump target form: JMP, JC, JZ (R73; 43_control.md R163). -/
def jumpTarget (operand : Byte) : Word := zext16 operand

end Sys2Proof.Machine
end

