-- ==== Sys2Proof/Machine/Ops.lean ====
section
/-! DEFINITION. The named operations over memory, registers, the PC and the run state that every meaning is written from: spec/20_memory.md R53-R55 (accesses), 40_engine.md R104 (PC advance), 60_exceptions.md R204, R205 (raising a fault). -/

namespace Sys2Proof.Machine

/-! ### Memory as byte cells in one canonical form -/

/-- What an address that is not listed reads as: 0, since RAM is zero at reset (20_memory.md R52, R68)
and an unfilled ROM slot holds 0x0000 (R62).  Log entry 2. -/
def Memory.unlisted : Byte := 0

/-- The byte at a cell key. -/
def Memory.readByte : List Host.Cell → Nat → Byte
  | [], _ => Memory.unlisted
  | (key, b) :: m, k => if key = k then b else Memory.readByte m k

/-- Put a byte in front of a list of cells, unless it is what an unlisted address reads as. -/
def Memory.consByte (k : Nat) (b : Byte) (m : List Host.Cell) : List Host.Cell :=
  if b = Memory.unlisted then m else (k, b) :: m

/-- Write one byte, keeping keys rising and listing no byte equal to `Memory.unlisted`. -/
def Memory.writeByte : List Host.Cell → Nat → Byte → List Host.Cell
  | [], k, b => Memory.consByte k b []
  | (key, c) :: m, k, b =>
    if k < key then Memory.consByte k b ((key, c) :: m)
    else if k = key then Memory.consByte k b m
    else (key, c) :: Memory.writeByte m k b

/-- The cells from key `lo` on are in canonical form: keys strictly rising, from `lo` on and below
`limit`, and no listed byte equal to `Memory.unlisted`. -/
def Memory.wfFrom (limit : Nat) : Nat → List Host.Cell → Bool
  | _, [] => true
  | lo, (key, b) :: m =>
    decide (lo ≤ key) && decide (key < limit) && decide (b ≠ Memory.unlisted)
      && Memory.wfFrom limit (key + 1) m

/-- A memory of `words` words is in canonical form, with no cell outside its address space.  Two
memories in this form that read alike are equal lists. -/
def Memory.wf (words : Nat) (m : List Host.Cell) : Bool := Memory.wfFrom (2 * words) 0 m

/-- The cell key of the high byte (bits 15:8) of word `a`.  Log entry 1. -/
def Memory.highKey (a : Nat) : Nat := 2 * a

/-- The cell key of the low byte (bits 7:0) of word `a`.  Log entry 1. -/
def Memory.lowKey (a : Nat) : Nat := 2 * a + 1

/-- The 16-bit word at word address `a`: every access moves one whole word (20_memory.md R58). -/
def Memory.readWord (m : List Host.Cell) (a : Nat) : Word :=
  Memory.readByte m (Memory.highKey a) ++ Memory.readByte m (Memory.lowKey a)

/-- Replace the whole 16-bit word at word address `a` (R55, R58). -/
def Memory.writeWord (m : List Host.Cell) (a : Nat) (v : Word) : List Host.Cell :=
  Memory.writeByte (Memory.writeByte m (Memory.highKey a) (v.extractLsb' 8 8))
    (Memory.lowKey a) (v.extractLsb' 0 8)

/-- The cells of a list of words laid out from word address `a` on. -/
def Memory.ofWordsFrom : Nat → List Word → List Host.Cell
  | _, [] => []
  | a, w :: ws =>
    Memory.consByte (Memory.highKey a) (w.extractLsb' 8 8)
      (Memory.consByte (Memory.lowKey a) (w.extractLsb' 0 8) (Memory.ofWordsFrom (a + 1) ws))

/-- The memory that holds a list of words from address 0 on. -/
def Memory.ofWords (ws : List Word) : List Host.Cell := Memory.ofWordsFrom 0 ws

/-! ### Bounds-checked accesses -/

/-- Apply a function to the result of an access that did not fault. -/
def Access.map {α β : Type} (f : α → β) : Access α → Access β
  | .done v => .done (f v)
  | .addressFault addr => .addressFault addr

/-- `RomRead(addr)` (R53). -/
def State.romRead (s : State) (addr : Word) : Access Word :=
  if addr.toNat < Config.romWords then .done (Memory.readWord s.rom addr.toNat)
  else .addressFault addr

/-- `MemRead(addr, 1)` (R54). -/
def State.memRead (s : State) (addr : Word) : Access Word :=
  if addr.toNat < Config.ramWords then .done (Memory.readWord s.ram addr.toNat)
  else .addressFault addr

/-- `MemWrite(addr, 1, v)` (R55). -/
def State.memWrite (s : State) (addr v : Word) : Access State :=
  if addr.toNat < Config.ramWords then
    .done { s with ram := Memory.writeWord s.ram addr.toNat v }
  else .addressFault addr

/-- The fetch reads `ROM[PC]` through `RomRead` (40_engine.md R101). -/
def State.fetch (s : State) : Access Word := s.romRead s.pc

/-! ### Registers, flags and output -/

/-- `regA <- v` (10_state.md R21). -/
def State.setRegA (s : State) (v : Word) : State := { s with regA := v }

/-- `regB <- v` (10_state.md R22). -/
def State.setRegB (s : State) (v : Word) : State := { s with regB := v }

/-- `regA <- Alu.add(regA, regB)`, writing C and Z (42_arithmetic.md R140, R142, R143). -/
def State.aluAddRegs (s : State) : State :=
  { s with
    regA := (aluAdd s.regA s.regB s.flags).1
    flags := (aluAdd s.regA s.regB s.flags).2 }

/-- `regB <- target; J <- 1`: what JMP does, and JC and JZ when taken (43_control.md R160-R162). -/
def State.requestJump (s : State) (target : Word) : State :=
  { s with regB := target, flags := { s.flags with j := true } }

/-- `Out(v)`: append `v` to the output sequence (44_system_io.md R181). -/
def State.emit (s : State) (v : Word) : State := { s with out := s.out ++ [v] }

/-- `run <- Halted` (44_system_io.md R183). -/
def State.halt (s : State) : State := { s with run := .halted }

/-- `advance()`, the PC sequencer (40_engine.md R104): with J set, load the PC from regB and clear J;
otherwise `PC <- (PC + 1) mod 2^16`. -/
def State.advance (s : State) : State :=
  if s.flags.j then { s with pc := s.regB, flags := { s.flags with j := false } }
  else { s with pc := s.pc + 1 }

/-! ### Raising a runtime fault.  The CORE has no trap entry, vector or return (60_exceptions.md R209):
this is all there is to taking an exception, and there is no return from one. -/

/-- The numeric cause code of the record: 1 or 2 (60_exceptions.md R204).  Log entry 7. -/
def FaultCause.code : FaultCause → Nat
  | .addressFault => 1
  | .illegalOpcode => 2

/-- The record of an AddressFault (R202, R204). -/
def FaultRecord.ofAddressFault (kind : AccessKind) (addr pc : Word) (opcode : Option Byte) :
    FaultRecord :=
  { cause := .addressFault, access := some kind, address := some addr, pc := pc, opcode := opcode }

/-- The record of an IllegalOpcode (R203, R204). -/
def FaultRecord.ofIllegalOpcode (pc : Word) (opcode : Byte) : FaultRecord :=
  { cause := .illegalOpcode, access := none, address := none, pc := pc, opcode := some opcode }

/-- `raise E(info)`: "The cycle that raises it writes nothing.  Then `fault <- record` and
`run <- Faulted`" (R205).  `s` is the state before the cycle.  Log entries 4, 5. -/
def State.raise (s : State) (record : FaultRecord) : State :=
  { s with run := .faulted, fault := some record }

/-- End a cycle whose one data access answered `r`: go on with the PC advance, or raise the AddressFault
of `opcode` from the state `s` before the cycle (R202, R205). -/
def State.finishAccess (s : State) (kind : AccessKind) (opcode : Byte) :
    Access State → Host.Outcome State Fault Refusal
  | .done t => .next t.advance
  | .addressFault addr => .next (s.raise (.ofAddressFault kind addr s.pc (some opcode)))

/-! ### Loading -/

/-- The word at ROM address PC becomes `w`, and the machine is ready to fetch it: a Running engine with
no fault and a PC inside ROM, each changed only where the fetch needs it.  Log entry 13. -/
def State.placeFetchWord (s : State) (w : Word) : State :=
  let pc : Word := if s.pc.toNat < Config.romWords then s.pc else Config.resetPc
  { s with
    pc := pc
    rom := Memory.writeWord s.rom pc.toNat w
    run := .running
    fault := if s.run = .running then s.fault else none }

end Sys2Proof.Machine
end

