-- ==== Sys2Proof/Machine/Arithmetic.lean ====
section
/-! DEFINITION. Arithmetic: ADD, ADI and the reserved SUB and ADR (spec/42_arithmetic.md R142-R145). -/

namespace Sys2Proof.Machine

/-- ADD: `regB <- MemRead(zext_16(operand), 1); regA <- Alu.add(regA, regB); advance()`; AddressFault
ram-read, with nothing written (R142). -/
def execAdd (n : Byte) (s : State) : Host.Outcome State Fault Refusal :=
  s.finishAccess .ramRead (opcodeOf (.add n))
    ((s.memRead (ramAddress n)).map fun v => (s.setRegB v).aluAddRegs)

/-- ADI: `regB <- zext_16(operand); regA <- Alu.add(regA, regB); advance()` (R143). -/
def execAdi (n : Byte) (s : State) : Host.Outcome State Fault Refusal :=
  .next (s.setRegB (immediate n)).aluAddRegs.advance

/-- SUB, reserved: `skip; advance()`, whatever the operand (R144, 30_encoding.md R77). -/
def execSub (_n : Byte) (s : State) : Host.Outcome State Fault Refusal :=
  .next s.advance

/-- ADR, reserved: `skip; advance()`, whatever the operand (R145, 30_encoding.md R77). -/
def execAdr (_n : Byte) (s : State) : Host.Outcome State Fault Refusal :=
  .next s.advance

end Sys2Proof.Machine
end

