-- ==== Sys2Proof/Machine/Control.lean ====
section
/-! DEFINITION. Control transfer: JMP, JC, JZ (spec/43_control.md R160-R162). -/

namespace Sys2Proof.Machine

/-- JMP: `regB <- zext_16(operand); J <- 1; advance()` (R160). -/
def execJmp (n : Byte) (s : State) : Host.Outcome State Fault Refusal :=
  .next (s.requestJump (jumpTarget n)).advance

/-- JC: the regB write and the setting of J both under `C = 1`; `advance()` (R161, 90_conflicts.md C6). -/
def execJc (n : Byte) (s : State) : Host.Outcome State Fault Refusal :=
  .next (if s.flags.c then s.requestJump (jumpTarget n) else s).advance

/-- JZ: the regB write and the setting of J both under `Z = 1`; `advance()` (R162, 90_conflicts.md C6). -/
def execJz (n : Byte) (s : State) : Host.Outcome State Fault Refusal :=
  .next (if s.flags.z then s.requestJump (jumpTarget n) else s).advance

end Sys2Proof.Machine
end

