-- ==== Sys2Proof/Machine/LoadStore.lean ====
section
/-! DEFINITION. Loads and stores: LDA, LDR, LDI, STA (spec/41_load_store.md R120-R123). -/

namespace Sys2Proof.Machine

/-- LDA: `regA <- MemRead(zext_16(operand), 1); advance()`; AddressFault ram-read (R120). -/
def execLda (n : Byte) (s : State) : Host.Outcome State Fault Refusal :=
  s.finishAccess .ramRead (opcodeOf (.lda n)) ((s.memRead (ramAddress n)).map s.setRegA)

/-- LDR: `regA <- RomRead(zext_16(operand)); advance()`; AddressFault rom-read (R121). -/
def execLdr (n : Byte) (s : State) : Host.Outcome State Fault Refusal :=
  s.finishAccess .romRead (opcodeOf (.ldr n)) ((s.romRead (romAddress n)).map s.setRegA)

/-- LDI: `regA <- zext_16(operand); advance()` (R122). -/
def execLdi (n : Byte) (s : State) : Host.Outcome State Fault Refusal :=
  .next (s.setRegA (immediate n)).advance

/-- STA: `MemWrite(zext_16(operand), 1, regA); advance()`; AddressFault ram-write (R123). -/
def execSta (n : Byte) (s : State) : Host.Outcome State Fault Refusal :=
  s.finishAccess .ramWrite (opcodeOf (.sta n)) (s.memWrite (ramAddress n) s.regA)

end Sys2Proof.Machine
end

