-- ==== Sys2Proof/Machine/System.lean ====
section
/-! DEFINITION. No-operation, output and halt: NOP, OUT, HLT (spec/44_system_io.md R180, R181, R183). -/

namespace Sys2Proof.Machine

/-- NOP: `skip; advance()` (R180). -/
def execNop (s : State) : Host.Outcome State Fault Refusal :=
  .next s.advance

/-- OUT: `Out(regA); advance()` (R181). -/
def execOut (s : State) : Host.Outcome State Fault Refusal :=
  .next (s.emit s.regA).advance

/-- HLT: `run <- Halted`, with no advance: "PC keeps the HLT's address" (R183, 40_engine.md R105).
Log entry 9. -/
def execHlt (s : State) : Host.Outcome State Fault Refusal :=
  .next s.halt

end Sys2Proof.Machine
end

