-- ==== Sys2Proof/Machine/Dispatch.lean ====
section
/-! DEFINITION. Dispatch on the opcode (spec/40_engine.md R103): one arm per instruction. -/

namespace Sys2Proof.Machine

def exec (i : Instr) (s : State) : Host.Outcome State Fault Refusal :=
  match i with
  | .nop => Sys2Proof.Machine.execNop s
  | .lda n => Sys2Proof.Machine.execLda n s
  | .sta n => Sys2Proof.Machine.execSta n s
  | .add n => Sys2Proof.Machine.execAdd n s
  | .sub n => Sys2Proof.Machine.execSub n s
  | .out => Sys2Proof.Machine.execOut s
  | .jmp n => Sys2Proof.Machine.execJmp n s
  | .jc n => Sys2Proof.Machine.execJc n s
  | .jz n => Sys2Proof.Machine.execJz n s
  | .hlt => Sys2Proof.Machine.execHlt s
  | .ldi n => Sys2Proof.Machine.execLdi n s
  | .adi n => Sys2Proof.Machine.execAdi n s
  | .ldr n => Sys2Proof.Machine.execLdr n s
  | .adr n => Sys2Proof.Machine.execAdr n s

end Sys2Proof.Machine
end

