-- ==== Sys2Proof/Machine/Cycle.lean ====
section
/-! DEFINITION. The cycle of spec/40_engine.md R100, R109: fetch, decode, dispatch; each meaning ends with the PC advance. -/

namespace Sys2Proof.Machine

/-- Decode and dispatch of a fetched word; an opcode outside the map raises IllegalOpcode (R102, R103,
60_exceptions.md R203; log entry 8). -/
def executeWord (w : Word) (s : State) : Host.Outcome State Fault Refusal :=
  match decode w with
  | .ok i => exec i s
  | .error (.undefinedOpcode opcode) => .next (s.raise (.ofIllegalOpcode s.pc opcode))

/-- One cycle: an out-of-range PC raises AddressFault (access fetch, address PC, no opcode) before
anything is decoded (R101, R207; log entry 6). -/
def cycle (s : State) : Host.Outcome State Fault Refusal :=
  match s.fetch with
  | .done w => executeWord w s
  | .addressFault addr => .next (s.raise (.ofAddressFault .fetch addr s.pc none))

end Sys2Proof.Machine
end

