-- ==== Sys2Proof/Machine/Step.lean ====
section
/-! DEFINITION. The step of the machine: one cycle when Running, nothing in the terminal states (spec/40_engine.md R107, R110). -/

namespace Sys2Proof.Machine

/-- "`step()` runs one cycle when `run = Running`, and does nothing when `run` is Halted or Faulted"
(R110).  Log entry 14. -/
def step (s : State) : Host.Outcome State Fault Refusal :=
  match s.run with
  | .running => cycle s
  | .halted => .next s
  | .faulted => .next s

/-- `s` with a table word stored where the next step fetches, and ready to fetch it. -/
def State.withFetchWord (s : State) (nbits w : Nat) : State :=
  s.placeFetchWord (tableWord nbits w)

end Sys2Proof.Machine
end

