-- ==== Sys2Proof/Machine/Assembler.lean ====
section
/-! DEFINITION. The assembler, "a one-shot translator" from program text to a ROM image (spec/30_encoding.md R80-R93). Toolchain, not hardware state (00_scope.md R6). -/

namespace Sys2Proof.Machine

/-- AssemblyError, "reported with the offending token" (R92). -/
structure AssemblyError where
  token : Token
deriving DecidableEq, Repr

/-- Whitespace: space, horizontal tab, line feed, vertical tab, form feed, carriage return (R81).
Log entry 18. -/
def isWhitespace (c : Char) : Bool :=
  decide (c.toNat ∈ [0x20, 0x09, 0x0A, 0x0B, 0x0C, 0x0D])

/-- Put a finished token in front, unless it is empty: "empty tokens do not exist" (R81).  `current`
holds its characters, last first. -/
def closeToken (current : List Char) (rest : List Token) : List Token :=
  if current = [] then rest else current.reverse :: rest

/-- Split the remaining text, with `current` the characters read of the present token, last first. -/
def tokenizeFrom : List Char → List Char → List Token
  | current, [] => closeToken current []
  | current, c :: text =>
    if isWhitespace c then closeToken current (tokenizeFrom [] text)
    else tokenizeFrom (c :: current) text

/-- The tokens of a text: its maximal runs of non-whitespace characters (R81). -/
def tokenize (text : List Char) : List Token := tokenizeFrom [] text

/-- A decimal digit `0`-`9` (R83). -/
def isDecimalDigit (c : Char) : Bool := decide (0x30 ≤ c.toNat) && decide (c.toNat ≤ 0x39)

/-- The value of a run of decimal digits. -/
def decimalValue (t : Token) : Nat := t.foldl (fun acc c => 10 * acc + (c.toNat - 0x30)) 0

/-- An operand token: one or more decimal digits of value at most 255, leading zeros allowed (R83). -/
def parseOperand (t : Token) : Option Byte :=
  if t ≠ [] ∧ t.all isDecimalDigit ∧ decimalValue t ≤ 255 then
    some (BitVec.ofNat 8 (decimalValue t))
  else none

/-- The row of a mnemonic, matched character for character (R82). -/
def mnemonicRow? (t : Token) : Option OpcodeRow :=
  opcodeMap.find? fun row => decide (row.mnemonic = t)

/-- Write one instruction into the next free ROM slot, or fail at its mnemonic when all 128 are full
(R84, R87).  `rom` holds the slots filled so far, so its length is the write cursor. -/
def emitInstr (mnemonic : Token) (row : OpcodeRow) (operand : Byte) (rom : List Word) :
    Except AssemblyError (List Word) :=
  if rom.length = Config.romWords then .error ⟨mnemonic⟩
  else .ok (rom ++ [instrWord row.opcode operand])

/-- The loop of R93 over the tokens that remain.  The operand is checked before the capacity
(log entry 17). -/
def assembleFrom (rom : List Word) : List Token → Except AssemblyError (List Word)
  | [] => .ok rom
  | m :: rest =>
    match mnemonicRow? m with
    | none => .error ⟨m⟩
    | some row =>
      if row.takesOperand then
        match rest with
        | [] => .error ⟨m⟩
        | t :: rest' =>
          match parseOperand t with
          | none => .error ⟨t⟩
          | some v =>
            match emitInstr m row v rom with
            | .error e => .error e
            | .ok rom' => assembleFrom rom' rest'
      else
        match emitInstr m row 0 rom with
        | .error e => .error e
        | .ok rom' => assembleFrom rom' rest

/-- Fill the slots from the cursor to 127 with 0x0000 (R86, 20_memory.md R62). -/
def padImage (rom : List Word) : List Word :=
  rom ++ List.replicate (Config.romWords - rom.length) 0

/-- Assemble a list of tokens into an image of 128 words (R93). -/
def assembleTokens (tokens : List Token) : Except AssemblyError (List Word) :=
  (assembleFrom [] tokens).map padImage

/-- `assemble(text)` (R80, R93). -/
def assemble (text : List Char) : Except AssemblyError (List Word) :=
  assembleTokens (tokenize text)

/-- The tokens that program text writes an instruction with: its mnemonic, and its operand in decimal if
the mnemonic takes one (R88). -/
def instrTokens (i : Instr) : List Token :=
  match opcodeRow? (opcodeOf i) with
  | some row =>
    if row.takesOperand then [row.mnemonic, Nat.toDigits 10 (operandOf i).toNat]
    else [row.mnemonic]
  | none => []

/-- Program text of a sequence of instructions, one token a line (R81: line structure has no meaning). -/
def sourceText (is : List Instr) : List Char :=
  (is.flatMap instrTokens).flatMap fun t => t ++ [Char.ofNat 0x0A]

end Sys2Proof.Machine
end

