-- ==== Sys2Proof/Machine/HostControl.lean ====
section
/-! DEFINITION. The host boundary: reset with a ROM load and boot (spec/70_reset_and_hazards.md R240-R243), step, bounded run and PC reset (40_engine.md R110-R112), the console rendering (44_system_io.md R182), the exit status (60_exceptions.md R219) and the OUT pacing delay (R252). No instruction can reach any of it. -/

namespace Sys2Proof.Machine

/-- Power-on reset with a ROM image: every element at its reset value and `ROM <- image` (R240).  The
image is given as its words; ROM has 128 slots, and slots past the image hold 0 (20_memory.md R62).
Log entry 12. -/
def State.powerOn (image : List Word) : State :=
  { State.reset with rom := Memory.ofWords (image.take Config.romWords) }

/-- Boot: assemble, load, reset (R243).  On an AssemblyError there is no machine state, only the error
(R242; log entry 26). -/
def boot (text : List Char) : Except AssemblyError State :=
  (assemble text).map State.powerOn

/-- `run(n)`: "runs cycles until `n` cycles have run or `run` is no longer Running" (R110). -/
def hostRun : Nat → State → Host.Outcome State Fault Refusal
  | 0, s => .next s
  | n + 1, s =>
    if s.run = .running then
      match step s with
      | .next t => hostRun n t
      | .fault r => .fault r
      | .refused r => .refused r
    else .next s

/-- `pcReset()`: "writes `PC <- 0` and changes nothing else" (R111). -/
def pcReset (s : State) : State := { s with pc := Config.resetPc }

/-- What an ended run leaves for the host (R112). -/
structure RunResult where
  out : List Word
  regA : Word
  regB : Word
  c : Bool
  z : Bool
  pc : Word
  ram : List Host.Cell
  /-- The record when Faulted, none when Halted. -/
  fault : Option FaultRecord
deriving DecidableEq, Repr

/-- The result of a run that has ended; none while Running: "a bounded run that stops after `n` cycles
with `run = Running` has not ended" (R112). -/
def State.runResult (s : State) : Option RunResult :=
  match s.run with
  | .running => none
  | .halted => some ⟨s.out, s.regA, s.regB, s.flags.c, s.flags.z, s.pc, s.ram, s.fault⟩
  | .faulted => some ⟨s.out, s.regA, s.regB, s.flags.c, s.flags.z, s.pc, s.ram, s.fault⟩

/-- An exit status, as far as the spec fixes it: "The source gives no particular non-zero value, and the
spec fixes none" (R219).  Log entry 20. -/
inductive ExitStatus where
  | zero
  | nonZero
deriving DecidableEq, Repr

/-- The exit status of a run: 0 when Halted, non-zero when Faulted, none while it has not ended (R219). -/
def State.exitStatus (s : State) : Option ExitStatus :=
  match s.run with
  | .running => none
  | .halted => some .zero
  | .faulted => some .nonZero

/-- The exit status of a boot that stops: "an AssemblyError is non-zero, and the engine never starts"
(R219); none when the engine starts. -/
def bootExitStatus (text : List Char) : Option ExitStatus :=
  match assemble text with
  | .error _ => some .nonZero
  | .ok _ => none

/-- One output value as a plain base-10 integer, no leading zeros (R182). -/
def renderValue (v : Word) : List Char := Nat.toDigits 10 v.toNat

/-- The console's lines, "one decimal integer per line" for each OUT (R182).  Line terminator and
buffering are the host's (log entry 22). -/
def renderConsole (s : State) : List (List Char) := s.out.map renderValue

/-- How long the engine is blocked after an instruction, in milliseconds: the pacing delay after OUT and
nothing else (R251, R252).  No rule reads it.  Log entry 19. -/
def pacingDelayMs : Instr → Nat
  | .nop => 0
  | .lda _ => 0
  | .sta _ => 0
  | .add _ => 0
  | .sub _ => 0
  | .out => Config.outDelayMs
  | .jmp _ => 0
  | .jc _ => 0
  | .jz _ => 0
  | .hlt => 0
  | .ldi _ => 0
  | .adi _ => 0
  | .ldr _ => 0
  | .adr _ => 0

end Sys2Proof.Machine
end

