-- ==== Sys2Proof/Safety.lean ====
section
/-! DEFINITION. What claims are stated in: the invariant of the machine's states, and the cycles that raise no runtime fault (spec/60_exceptions.md R201-R207). -/

namespace Sys2Proof.Machine

/-- A record as R202 and R204 allow it: which fields are present for which cause, with an address that
names no cell. -/
def FaultRecord.wf (r : FaultRecord) : Bool :=
  match r.cause, r.access, r.address, r.opcode with
  | .addressFault, some .fetch, some addr, none =>
    decide (addr = r.pc) && decide (Config.romWords ≤ addr.toNat)
  | .addressFault, some .romRead, some addr, some op =>
    decide (op = 0x20) && decide (Config.romWords ≤ addr.toNat)
  | .addressFault, some .ramRead, some addr, some op =>
    decide (op = 0x01 ∨ op = 0x03) && decide (Config.ramWords ≤ addr.toNat)
  | .addressFault, some .ramWrite, some addr, some op =>
    decide (op = 0x02) && decide (Config.ramWords ≤ addr.toNat)
  | .illegalOpcode, none, none, some op => (opcodeRow? op).isNone
  | _, _, _, _ => false

/-- `run` and `fault` agree: no record unless Faulted, and then a record of this PC (10_state.md R37,
60_exceptions.md R204, R205). -/
def State.faultAgrees (s : State) : Bool :=
  match s.run, s.fault with
  | .faulted, some r => r.wf && decide (r.pc = s.pc)
  | .faulted, none => false
  | _, f => f.isNone

/-- The invariant of every state between cycles. -/
structure State.Inv (s : State) : Prop where
  /-- ROM is in canonical form inside its 128 words (20_memory.md R51, R61). -/
  romWf : Memory.wf Config.romWords s.rom = true
  /-- RAM is in canonical form inside its 128 words (20_memory.md R52, R61). -/
  ramWf : Memory.wf Config.ramWords s.ram = true
  /-- "`J = 0` at the start of every cycle" (10_state.md R34). -/
  noJump : s.flags.j = false
  /-- "The PC sequencer can only produce values in `0..255`" (10_state.md R24). -/
  pcRange : s.pc.toNat ≤ 255
  /-- `run` and `fault` agree. -/
  faultOk : s.faultAgrees = true

/-- The data access of an instruction, if it makes one, names a cell (20_memory.md R56, R58). -/
def dataAddressOk : Instr → Bool
  | .lda n => decide (n.toNat < Config.ramWords)
  | .sta n => decide (n.toNat < Config.ramWords)
  | .add n => decide (n.toNat < Config.ramWords)
  | .ldr n => decide (n.toNat < Config.romWords)
  | .nop => true
  | .sub _ => true
  | .out => true
  | .jmp _ => true
  | .jc _ => true
  | .jz _ => true
  | .hlt => true
  | .ldi _ => true
  | .adi _ => true
  | .adr _ => true

/-- The cycle the machine is about to take raises no fault: the PC names a ROM word, that word's opcode
is in the map, and its data access names a cell (60_exceptions.md R201-R203). -/
def State.cycleSafe (s : State) : Bool :=
  decide (s.pc.toNat < Config.romWords) &&
    match decode (Memory.readWord s.rom s.pc.toNat) with
    | .ok i => dataAddressOk i
    | .error _ => false

/-- The encoding an instruction rule gives a mnemonic that takes an operand: the word is the opcode byte
and the operand byte, it decodes to the instruction, and the assembler form `MNEMONIC n` assembles to
it in slot 0 (30_encoding.md R75, R84). -/
def EncodedAs (opcode : Byte) (mnemonic : Token) (i : Byte → Instr) : Prop :=
  ∀ n : Byte,
    encode (i n) = instrWord opcode n ∧
    decode (instrWord opcode n) = .ok (i n) ∧
    ∀ t : Token, parseOperand t = some n →
      assembleTokens [mnemonic, t] = .ok (instrWord opcode n :: List.replicate 127 0)

/-- The encoding an instruction rule gives a mnemonic without operand: the assembled word has operand
byte 0, and bits 7:0 are ignored by the decoder (30_encoding.md R76, R84). -/
def EncodedPlain (opcode : Byte) (mnemonic : Token) (i : Instr) : Prop :=
  encode i = instrWord opcode 0 ∧
  (∀ n : Byte, decode (instrWord opcode n) = .ok i) ∧
  assembleTokens [mnemonic] = .ok (instrWord opcode 0 :: List.replicate 127 0)

end Sys2Proof.Machine
end

