-- ==== Sys2Proof/Certificates/Slice0/Obligations.lean ====
section
/-! DEFINITION. The statements about the e16b CORE that the provers settle, in the order of spec/: encoding, state and reset, memory, ALU and PC sequencer, the 14 instructions, the engine, whole-machine rules, frames, assembler and host boundary. A premise `s.flags.j = false` is the clause J = 0 of the machine's invariant (10_state.md R34), which `EveryStepKeepsInvariant` states. -/

open Sys2Proof Sys2Proof.Machine

/-! ### Encoding -/

/-- Decode and encode agree (30_encoding.md R70, R72, R75): for all 14 instructions, with every operand. -/
def Obligations.DecodeOfEncodeGivesInstruction : Prop :=
  ∀ i : Instr, i.wellFormed = true → decode (encode i) = .ok i

/-- The other direction (R75, R76): a word that decodes is encoded back, but for the low byte of NOP, OUT
and HLT, which the assembler writes as 0. -/
def Obligations.EncodeOfDecodeGivesWordBack : Prop :=
  ∀ (w : Word) (i : Instr), decode w = .ok i →
    ((i ≠ .nop ∧ i ≠ .out ∧ i ≠ .hlt) → encode i = w) ∧
    ((i = .nop ∨ i = .out ∨ i = .hlt) → encode i = instrWord (opcodeField w) 0)

/-- The decoder rejects exactly the opcode bytes of R78, naming the byte. -/
def Obligations.DecoderRejectsExactlyUndefinedOpcodes : Prop :=
  ∀ w : Word,
    (decode w = .error (.undefinedOpcode (opcodeField w))) ↔
      ((opcodeField w).toNat = 0x09 ∨
       (0x0B ≤ (opcodeField w).toNat ∧ (opcodeField w).toNat ≤ 0x0F) ∨
       (0x12 ≤ (opcodeField w).toNat ∧ (opcodeField w).toNat ≤ 0x1F) ∨
       (0x22 ≤ (opcodeField w).toNat ∧ (opcodeField w).toNat ≤ 0xFF))

/-- The decoder's split of a word, and "the opcode alone selects the instruction" (R72). -/
def Obligations.DecoderSplitsWordAndOpcodeSelects : Prop :=
  ∀ w : Word,
    (opcodeField w).toNat = w.toNat / 256 ∧
    (operandField w).toNat = w.toNat % 256 ∧
    ∀ w' : Word, opcodeField w' = opcodeField w →
      (decode w' = .error (.undefinedOpcode (opcodeField w)) ∧
        decode w = .error (.undefinedOpcode (opcodeField w))) ∨
      (∃ i i' : Instr, decode w = .ok i ∧ decode w' = .ok i' ∧
        opcodeOf i = opcodeField w ∧ opcodeOf i' = opcodeField w)

/-- Words of the decode table of 95_test_vectors.md, written out bit by bit from R70 and R75. -/
def Obligations.WrittenOutWordsDecode : Prop :=
  decode 0b0000000000000000 = .ok .nop ∧
  decode 0b0000000011111111 = .ok .nop ∧
  decode 0b0000000100000101 = .ok (.lda 5) ∧
  decode 0b0000010111111111 = .ok .out ∧
  decode 0b0000011011111111 = .ok (.jmp 255) ∧
  decode 0b0000101000000111 = .ok .hlt ∧
  decode 0b0010000010000000 = .ok (.ldr 128) ∧
  decode 0b0010000111111111 = .ok (.adr 255) ∧
  decode 0b0000100100000000 = .error (.undefinedOpcode 0x09) ∧
  decode 0b0001001011111111 = .error (.undefinedOpcode 0x12)

/-! ### State, reset and the invariant -/

/-- The reset values of 10_state.md R39: PC, flags, RAM, ROM slots past the program, `out`, `run`, `fault`.
regA = regB = 0 is the spec's own decision D2 (log entry 3), and `State.reset` holds the image of an
empty program (log entry 12). -/
def Obligations.ResetLeavesSpecValues : Prop :=
  State.reset.pc = 0 ∧
  State.reset.flags.c = false ∧ State.reset.flags.z = false ∧ State.reset.flags.j = false ∧
  State.reset.flags.word = 0 ∧
  (∀ a : Nat, Memory.readWord State.reset.ram a = 0) ∧
  (∀ a : Nat, Memory.readWord State.reset.rom a = 0) ∧
  State.reset.regA = 0 ∧ State.reset.regB = 0 ∧
  State.reset.out = [] ∧ State.reset.run = .running ∧ State.reset.fault = none

/-- The 16-bit Flags word: C is bit 0, Z bit 1, J bit 2, and bits 15:3 are always 0 (10_state.md R26, R27).
The positions are the spec's own decision D1 (log entry 11). -/
def Obligations.FlagsWordHoldsThreeBits : Prop :=
  ∀ f : Flags, f.word.toNat = (if f.c then 1 else 0) + (if f.z then 2 else 0) + (if f.j then 4 else 0)

/-- The invariant holds right after reset. -/
def Obligations.ResetMeetsInvariant : Prop :=
  State.reset.Inv

/-- The invariant holds after power-on with any ROM image (70_reset_and_hazards.md R240; decision D9
and log entry 12). -/
def Obligations.PowerOnMeetsInvariant : Prop :=
  ∀ image : List Word, (State.powerOn image).Inv

/-- Every step keeps the invariant: canonical memories, J = 0 at every fetch (10_state.md R34), PC in
0..255 (R24), and a well-formed fault record of this PC exactly when Faulted (R37).  The record's clause
rests on the spec's own decisions: that a PC of 128 or more is held and faults at the fetch (D3, log entry
6), that the faulting cycle leaves the PC the record names (D4, log entry 5), and the record's fields and
which of them each cause fills (D5, log entry 7); the opcode of an IllegalOpcode record is D6 (log entry
8).  That memories are lists of byte cells is log entry 1. -/
def Obligations.EveryStepKeepsInvariant : Prop :=
  ∀ s t : State, s.Inv → step s = .next t → t.Inv

/-- Power-on loads the ROM image word by word, puts every other element at its reset value, and the first
cycle fetches `ROM[0]` (R240, R241, 20_memory.md R62, R68).  That any given image is a launch parameter is
the spec's own decision D9, and that the missing words of an image of fewer than 128 words read 0 is the
model's choice (log entry 12).  Of the reset values, regA = regB = 0 is decision D2 (log entry 3). -/
def Obligations.PowerOnLoadsImageAndFetchesWordZero : Prop :=
  ∀ image : List Word, image.length ≤ 128 →
    (∀ a : Nat, Memory.readWord (State.powerOn image).rom a = image.getD a 0) ∧
    State.powerOn image = { State.reset with rom := (State.powerOn image).rom } ∧
    step (State.powerOn image) = executeWord (image.getD 0 0) (State.powerOn image)

/-! ### Memory -/

/-- `RomRead` and `MemRead` (20_memory.md R53, R54): the word, or AddressFault at an address of 128 or more. -/
def Obligations.ReadsAreBoundsChecked : Prop :=
  ∀ (s : State) (addr : Word),
    (addr.toNat < 128 →
      s.romRead addr = .done (Memory.readWord s.rom addr.toNat) ∧
      s.memRead addr = .done (Memory.readWord s.ram addr.toNat)) ∧
    (128 ≤ addr.toNat →
      s.romRead addr = .addressFault addr ∧ s.memRead addr = .addressFault addr)

/-- `MemWrite` (R55): the whole word at `addr` is replaced and no other, or AddressFault with no cell
changed, by the access and by the STA that makes it. -/
def Obligations.MemWriteReplacesOneWholeWord : Prop :=
  ∀ (s : State) (addr v : Word), Memory.wf 128 s.ram = true →
    (addr.toNat < 128 →
      ∃ t : State, s.memWrite addr v = .done t ∧ t = { s with ram := t.ram } ∧
        Memory.wf 128 t.ram = true ∧
        t.memRead addr = .done v ∧
        ∀ addr' : Word, addr' ≠ addr → t.memRead addr' = s.memRead addr') ∧
    (128 ≤ addr.toNat →
      s.memWrite addr v = .addressFault addr ∧
      ∀ (n : Byte) (t : State), zext16 n = addr → exec (.sta n) s = .next t → t.ram = s.ram)

/-! ### The ALU and the PC sequencer -/

/-- `Alu.add(a, b)` (42_arithmetic.md R140): the wrapped sum, C by the source's rule, Z on a zero result,
J never written; called with `a = regA`, `b = regB`. -/
def Obligations.AluAddFollowsSourceRule : Prop :=
  (∀ (a b : Word) (f : Flags),
    (aluAdd a b f).1.toNat = (a.toNat + b.toNat) % 65536 ∧
    ((aluAdd a b f).2.c = true ↔ a.toNat > 0 ∧ b.toNat > 0xFFFF - a.toNat) ∧
    ((aluAdd a b f).2.z = true ↔ (a.toNat + b.toNat) % 65536 = 0) ∧
    (aluAdd a b f).2.j = f.j) ∧
  ∀ s : State, s.aluAddRegs =
    { s with regA := (aluAdd s.regA s.regB s.flags).1, flags := (aluAdd s.regA s.regB s.flags).2 }

/-- The carry rule equals the 16-bit carry-out, with its three consequences (R141). -/
def Obligations.CarryIsBit16OfSum : Prop :=
  ∀ a b : Word,
    (aluCarry a b = true ↔ 65536 ≤ a.toNat + b.toNat) ∧
    aluCarry a b = aluCarry b a ∧
    (aluCarry a b = true ∧ aluZero (aluSum a b) = true ↔ a.toNat + b.toNat = 65536) ∧
    (aluCarry a b = false ∧ aluZero (aluSum a b) = true ↔ a = 0 ∧ b = 0) ∧
    (aluCarry a b = true ∧ aluZero (aluSum a b) = false ↔ 65536 < a.toNat + b.toNat)

/-- `advance()` (40_engine.md R104). -/
def Obligations.AdvanceLoadsTargetOrIncrements : Prop :=
  ∀ s : State,
    (s.flags.j = true → s.advance = { s with pc := s.regB, flags := { s.flags with j := false } }) ∧
    (s.flags.j = false → s.advance = { s with pc := s.advance.pc } ∧
      s.advance.pc.toNat = (s.pc.toNat + 1) % 65536)

/-! ### The instructions.  Each statement's conclusion says that `exec` answers the next state of the
instruction's own effect, written out whole, so it also says what stays unchanged. -/

/-- NOP (44_system_io.md R180): encoding, and nothing but the PC advance. -/
def Obligations.NopOnlyAdvances : Prop :=
  EncodedPlain 0x00 ['N', 'O', 'P'] .nop ∧
  ∀ s : State, s.flags.j = false → exec .nop s = .next { s with pc := s.pc + 1 }

/-- LDA (41_load_store.md R120): regA becomes the RAM word; an address of 128 or more is an AddressFault
(ram-read, opcode 0x01) that writes nothing.  The fault clause rests on the spec's decisions D4, D5
(log entries 5, 7). -/
def Obligations.LdaLoadsRamWord : Prop :=
  EncodedAs 0x01 ['L', 'D', 'A'] .lda ∧
  ∀ (n : Byte) (s : State),
    (n.toNat < 128 → s.flags.j = false →
      exec (.lda n) s = .next { s with regA := Memory.readWord s.ram n.toNat, pc := s.pc + 1 }) ∧
    (128 ≤ n.toNat →
      exec (.lda n) s = .next { s with
        run := .faulted
        fault := some ⟨.addressFault, some .ramRead, some (zext16 n), s.pc, some 0x01⟩ })

/-- LDR (R121): regA becomes the ROM word; an address of 128 or more is an AddressFault (rom-read, opcode
0x20) that writes nothing (D4, D5; log entries 5, 7). -/
def Obligations.LdrLoadsRomWord : Prop :=
  EncodedAs 0x20 ['L', 'D', 'R'] .ldr ∧
  ∀ (n : Byte) (s : State),
    (n.toNat < 128 → s.flags.j = false →
      exec (.ldr n) s = .next { s with regA := Memory.readWord s.rom n.toNat, pc := s.pc + 1 }) ∧
    (128 ≤ n.toNat →
      exec (.ldr n) s = .next { s with
        run := .faulted
        fault := some ⟨.addressFault, some .romRead, some (zext16 n), s.pc, some 0x20⟩ })

/-- LDI (R122): regA becomes the zero-extended operand; no flag is written and nothing faults. -/
def Obligations.LdiLoadsZeroExtendedOperand : Prop :=
  EncodedAs 0x10 ['L', 'D', 'I'] .ldi ∧
  ∀ (n : Byte) (s : State), s.flags.j = false →
    ∃ v : Word, v.toNat = n.toNat ∧
      exec (.ldi n) s = .next { s with regA := v, pc := s.pc + 1 }

/-- STA (R123): the RAM word becomes regA; an address of 128 or more is an AddressFault (ram-write, opcode
0x02) that writes nothing (D4, D5; log entries 5, 7). -/
def Obligations.StaStoresAccumulator : Prop :=
  EncodedAs 0x02 ['S', 'T', 'A'] .sta ∧
  ∀ (n : Byte) (s : State),
    (n.toNat < 128 → s.flags.j = false → Memory.wf 128 s.ram = true →
      ∃ ram : List Host.Cell,
        exec (.sta n) s = .next { s with ram := ram, pc := s.pc + 1 } ∧
        Memory.readWord ram n.toNat = s.regA ∧
        ∀ a : Nat, a ≠ n.toNat → Memory.readWord ram a = Memory.readWord s.ram a) ∧
    (128 ≤ n.toNat →
      exec (.sta n) s = .next { s with
        run := .faulted
        fault := some ⟨.addressFault, some .ramWrite, some (zext16 n), s.pc, some 0x02⟩ })

/-- ADD (42_arithmetic.md R142): regB becomes the RAM word, regA the wrapped sum, C and Z by the ALU's
rule; an address of 128 or more is an AddressFault (ram-read, opcode 0x03) that writes nothing (D4, D5;
log entries 5, 7). -/
def Obligations.AddAddsRamWord : Prop :=
  EncodedAs 0x03 ['A', 'D', 'D'] .add ∧
  ∀ (n : Byte) (s : State),
    (n.toNat < 128 → s.flags.j = false →
      exec (.add n) s = .next { s with
        regB := Memory.readWord s.ram n.toNat
        regA := s.regA + Memory.readWord s.ram n.toNat
        flags :=
          ⟨decide (s.regA.toNat > 0 ∧ (Memory.readWord s.ram n.toNat).toNat > 0xFFFF - s.regA.toNat),
           decide (s.regA + Memory.readWord s.ram n.toNat = 0), false⟩
        pc := s.pc + 1 }) ∧
    (128 ≤ n.toNat →
      exec (.add n) s = .next { s with
        run := .faulted
        fault := some ⟨.addressFault, some .ramRead, some (zext16 n), s.pc, some 0x03⟩ })

/-- ADI (R143): regB becomes the zero-extended operand, regA the wrapped sum, C and Z by the ALU's rule. -/
def Obligations.AdiAddsImmediate : Prop :=
  EncodedAs 0x11 ['A', 'D', 'I'] .adi ∧
  ∀ (n : Byte) (s : State), s.flags.j = false →
    ∃ v : Word, v.toNat = n.toNat ∧
      exec (.adi n) s = .next { s with
        regB := v
        regA := s.regA + v
        flags := ⟨decide (s.regA.toNat > 0 ∧ n.toNat > 0xFFFF - s.regA.toNat),
          decide (s.regA + v = 0), false⟩
        pc := s.pc + 1 }

/-- SUB (R144): reserved; for every operand, 128 and above included, nothing but the PC advance. -/
def Obligations.SubIsNoOperation : Prop :=
  EncodedAs 0x04 ['S', 'U', 'B'] .sub ∧
  ∀ (n : Byte) (s : State), s.flags.j = false → exec (.sub n) s = .next { s with pc := s.pc + 1 }

/-- ADR (R145): reserved; for every operand, nothing but the PC advance. -/
def Obligations.AdrIsNoOperation : Prop :=
  EncodedAs 0x21 ['A', 'D', 'R'] .adr ∧
  ∀ (n : Byte) (s : State), s.flags.j = false → exec (.adr n) s = .next { s with pc := s.pc + 1 }

/-- OUT (44_system_io.md R181): the whole regA is appended to `out` (decision D8, log entry 10). -/
def Obligations.OutEmitsAccumulator : Prop :=
  EncodedPlain 0x05 ['O', 'U', 'T'] .out ∧
  ∀ s : State, s.flags.j = false →
    exec .out s = .next { s with out := s.out ++ [s.regA], pc := s.pc + 1 }

/-- JMP (43_control.md R160): PC and regB become the zero-extended operand and J is 0 again; a target of
128 or more is loaded without error and the next cycle's fetch faults (decision D3, log entry 6). -/
def Obligations.JmpLoadsPcWithTarget : Prop :=
  EncodedAs 0x06 ['J', 'M', 'P'] .jmp ∧
  ∀ (n : Byte) (s : State), s.flags.j = false →
    ∃ (v : Word) (t : State), v.toNat = n.toNat ∧ exec (.jmp n) s = .next t ∧
      t = { s with regB := v, pc := v } ∧
      (128 ≤ n.toNat → s.run = .running →
        step t = .next { t with
          run := .faulted
          fault := some ⟨.addressFault, some .fetch, some v, v, none⟩ })

/-- JC (R161): as JMP when C is 1, C kept; otherwise nothing but the PC advance, regB kept. -/
def Obligations.JcJumpsExactlyOnCarry : Prop :=
  EncodedAs 0x07 ['J', 'C'] .jc ∧
  ∀ (n : Byte) (s : State), s.flags.j = false →
    (s.flags.c = true → exec (.jc n) s = .next { s with regB := zext16 n, pc := zext16 n }) ∧
    (s.flags.c = false → exec (.jc n) s = .next { s with pc := s.pc + 1 })

/-- JZ (R162): as JMP when Z is 1, Z kept; otherwise nothing but the PC advance, regB kept. -/
def Obligations.JzJumpsExactlyOnZero : Prop :=
  EncodedAs 0x08 ['J', 'Z'] .jz ∧
  ∀ (n : Byte) (s : State), s.flags.j = false →
    (s.flags.z = true → exec (.jz n) s = .next { s with regB := zext16 n, pc := zext16 n }) ∧
    (s.flags.z = false → exec (.jz n) s = .next { s with pc := s.pc + 1 })

/-- HLT (44_system_io.md R183): run becomes Halted, the PC keeps the HLT's address (decision D7, log entry
9), and no later step changes anything. -/
def Obligations.HltHaltsWithoutAdvance : Prop :=
  EncodedPlain 0x0A ['H', 'L', 'T'] .hlt ∧
  ∀ s : State, exec .hlt s = .next { s with run := .halted } ∧
    step { s with run := .halted } = .next { s with run := .halted }

/-! ### The engine -/

/-- A step of a Running machine runs the instruction its PC's word decodes to, and adds nothing of its own:
the PC advance is the last part of each instruction's meaning (40_engine.md R100-R103, R109). -/
def Obligations.StepRunsDecodedInstruction : Prop :=
  ∀ (s : State) (i : Instr), s.run = .running → s.pc.toNat < 128 →
    decode (Memory.readWord s.rom s.pc.toNat) = .ok i → step s = exec i s

/-- Halted and Faulted have no cycle: `step()` does nothing in them (R107, R110; decision D14, log entry
14). -/
def Obligations.TerminalStatesTakeNoCycle : Prop :=
  ∀ s : State, s.run = .halted ∨ s.run = .faulted → step s = .next s

/-- Every step of every state answers a next state: no instruction and no encoding stops the model.  For
the cycle of a Running machine this is R108 and 70_reset_and_hazards.md R251; that a runtime fault is such
a next state, not a stop of the model, is log entry 4 (60_exceptions.md R205); that a step of a Halted or
Faulted machine answers a state is R110 by the spec's own decision D14 (log entry 14); and that `exec` is
defined whatever `run` and J hold is log entry 16. -/
def Obligations.EveryStepAnswersNextState : Prop :=
  (∀ s : State, ∃ t : State, step s = .next t) ∧
  ∀ (i : Instr) (s : State), ∃ t : State, exec i s = .next t

/-- A fetch with `PC >= 128` raises AddressFault (fetch, address PC, no opcode) and changes nothing else
(R101, 60_exceptions.md R202; decisions D3, D4, D5, log entries 5-7). -/
def Obligations.FetchOutsideRomFaults : Prop :=
  ∀ s : State, s.run = .running → 128 ≤ s.pc.toNat →
    step s = .next { s with
      run := .faulted
      fault := some ⟨.addressFault, some .fetch, some s.pc, s.pc, none⟩ }

/-- An opcode byte outside the map raises IllegalOpcode with that byte and the PC, and changes nothing else
(60_exceptions.md R203; decision D6, log entry 8). -/
def Obligations.UndefinedOpcodeFaults : Prop :=
  ∀ s : State, s.run = .running → s.pc.toNat < 128 →
    opcodeRow? (opcodeField (Memory.readWord s.rom s.pc.toNat)) = none →
    step s = .next { s with
      run := .faulted
      fault := some ⟨.illegalOpcode, none, none, s.pc,
        some (opcodeField (Memory.readWord s.rom s.pc.toNat))⟩ }

/-- The runtime faults are exactly those of R201-R203: a Running machine's step ends Faulted precisely when
its PC is out of range, its opcode is undefined, or its data address is out of range.  Two of the three
clauses rest on the spec's own decisions: that the fetch is what faults at an out-of-range PC, and not the
advance that put it there, is D3 (log entry 6), and that an undefined opcode faults at all is D6 (log entry
8).  That the fault is a next state with `run` Faulted is log entry 4. -/
def Obligations.CycleFaultsExactlyWhenUnsafe : Prop :=
  ∀ s t : State, s.run = .running → step s = .next t →
    (t.run = .faulted ↔ s.cycleSafe = false)

/-- Faults are precise: a faulting cycle changes `run` and `fault` only, and leaves a record as R202 and
R204 allow it, of this PC (60_exceptions.md R205, R206; decision D4, log entry 5). -/
def Obligations.FaultingCycleWritesNothing : Prop :=
  ∀ s t : State, s.run = .running → step s = .next t → t.run = .faulted →
    ∃ r : FaultRecord, t = { s with run := .faulted, fault := some r } ∧
      r.wf = true ∧ r.pc = s.pc

/-! ### Whole-machine rules -/

/-- Only ADD and ADI write C, by the ALU's rule; only JC reads it; reset clears it (10_state.md R28).
That no other instruction reads C: changing C beforehand gives the same next state, or one that differs in
C alone where the instruction leaves C. -/
def Obligations.CarryWrittenOnlyByAddsAndReadOnlyByJc : Prop :=
  (∀ (i : Instr) (s t : State), (∀ n, i ≠ .add n) → (∀ n, i ≠ .adi n) → exec i s = .next t →
    t.flags.c = s.flags.c) ∧
  (∀ (n : Byte) (s t : State), exec (.adi n) s = .next t →
    (t.flags.c = true ↔ s.regA.toNat > 0 ∧ n.toNat > 0xFFFF - s.regA.toNat)) ∧
  (∀ (n : Byte) (s t : State), n.toNat < 128 → exec (.add n) s = .next t →
    (t.flags.c = true ↔
      s.regA.toNat > 0 ∧ (Memory.readWord s.ram n.toNat).toNat > 0xFFFF - s.regA.toNat)) ∧
  (∀ (i : Instr) (s t : State) (b : Bool), (∀ n, i ≠ .jc n) → exec i s = .next t →
    exec i { s with flags := { s.flags with c := b } } = .next t ∨
    (t.flags.c = s.flags.c ∧ exec i { s with flags := { s.flags with c := b } } =
      .next { t with flags := { t.flags with c := b } })) ∧
  State.reset.flags.c = false

/-- Only ADD and ADI write Z, by the ALU's rule; only JZ reads it, in the sense said for C; reset clears it
(R29). -/
def Obligations.ZeroWrittenOnlyByAddsAndReadOnlyByJz : Prop :=
  (∀ (i : Instr) (s t : State), (∀ n, i ≠ .add n) → (∀ n, i ≠ .adi n) → exec i s = .next t →
    t.flags.z = s.flags.z) ∧
  (∀ (n : Byte) (s t : State), exec (.adi n) s = .next t →
    (t.flags.z = true ↔ (s.regA.toNat + n.toNat) % 65536 = 0)) ∧
  (∀ (n : Byte) (s t : State), n.toNat < 128 → exec (.add n) s = .next t →
    (t.flags.z = true ↔ (s.regA.toNat + (Memory.readWord s.ram n.toNat).toNat) % 65536 = 0)) ∧
  (∀ (i : Instr) (s t : State) (b : Bool), (∀ n, i ≠ .jz n) → exec i s = .next t →
    exec i { s with flags := { s.flags with z := b } } = .next t ∨
    (t.flags.z = s.flags.z ∧ exec i { s with flags := { s.flags with z := b } } =
      .next { t with flags := { t.flags with z := b } })) ∧
  State.reset.flags.z = false

/-- RAM (20_memory.md R52): zero at reset and the only writable storage (no instruction writes ROM); LDA and
ADD read it, STA writes it, and no other instruction writes or reads it (changing RAM beforehand changes
nothing but RAM). -/
def Obligations.RamTouchedOnlyByLdaAddSta : Prop :=
  (∀ a : Nat, a < 128 → Memory.readWord State.reset.ram a = 0) ∧
  (∀ (n : Byte) (s t : State), n.toNat < 128 → exec (.lda n) s = .next t →
    t.regA = Memory.readWord s.ram n.toNat) ∧
  (∀ (n : Byte) (s t : State), n.toNat < 128 → exec (.add n) s = .next t →
    t.regB = Memory.readWord s.ram n.toNat) ∧
  (∀ (n : Byte) (s t : State), n.toNat < 128 → Memory.wf 128 s.ram = true →
    exec (.sta n) s = .next t → Memory.readWord t.ram n.toNat = s.regA) ∧
  (∀ (i : Instr) (s t : State), exec i s = .next t → t.rom = s.rom) ∧
  (∀ (i : Instr) (s t : State), (∀ n, i ≠ .sta n) → exec i s = .next t → t.ram = s.ram) ∧
  (∀ (i : Instr) (s t : State) (m : List Host.Cell),
    (∀ n, i ≠ .lda n) → (∀ n, i ≠ .add n) → (∀ n, i ≠ .sta n) → exec i s = .next t →
    exec i { s with ram := m } = .next { t with ram := m })

/-- ROM is never written, and only the fetch and LDR read it: with the fetched word given, changing ROM
beforehand changes nothing but ROM (20_memory.md R51, R66). -/
def Obligations.RomNeverWrittenAndReadOnlyByLdr : Prop :=
  (∀ s t : State, step s = .next t → t.rom = s.rom) ∧
  (∀ (i : Instr) (s t : State) (m : List Host.Cell), (∀ n, i ≠ .ldr n) → exec i s = .next t →
    exec i { s with rom := m } = .next { t with rom := m })

/-- regA is written by LDA, LDR, LDI, ADD and ADI only, and read by STA, OUT, ADD and ADI only (10_state.md
R21, R38; 90_conflicts.md C3).  That no other instruction reads it: changing regA beforehand gives the same
next state, or one that differs in regA alone where the instruction leaves regA. -/
def Obligations.AccumulatorWritersAndReaders : Prop :=
  (∀ (i : Instr) (s t : State),
    (∀ n, i ≠ .lda n) → (∀ n, i ≠ .ldr n) → (∀ n, i ≠ .ldi n) → (∀ n, i ≠ .add n) →
    (∀ n, i ≠ .adi n) → exec i s = .next t → t.regA = s.regA) ∧
  (∀ (i : Instr) (s t : State) (v : Word),
    (∀ n, i ≠ .sta n) → i ≠ .out → (∀ n, i ≠ .add n) → (∀ n, i ≠ .adi n) → exec i s = .next t →
    exec i { s with regA := v } = .next t ∨
    (t.regA = s.regA ∧ exec i { s with regA := v } = .next { t with regA := v }))

/-- No cycle reads a regB that an earlier cycle left: changing regB beforehand changes nothing but regB
itself, and that only where the cycle does not write it (10_state.md R22, R33; 70_reset_and_hazards.md
R249). -/
def Obligations.OperandRegisterNeverReadAcrossCycles : Prop :=
  ∀ (s t : State) (v : Word), s.flags.j = false → step s = .next t →
    step { s with regB := v } = .next t ∨
    (t.regB = s.regB ∧ step { s with regB := v } = .next { t with regB := v })

/-- `out` only grows, by one element, and only by OUT, which appends regA (10_state.md R35; decision D8, log
entry 10). -/
def Obligations.OutputGrowsOnlyByOut : Prop :=
  ∀ s t : State, step s = .next t →
    (t.out = s.out ++ [s.regA] ∧ s.run = .running ∧ s.pc.toNat < 128 ∧
      decode (Memory.readWord s.rom s.pc.toNat) = .ok .out) ∨
    (t.out = s.out ∧ ¬ (s.run = .running ∧ s.pc.toNat < 128 ∧
      decode (Memory.readWord s.rom s.pc.toNat) = .ok .out))

/-- A step enters Halted exactly by HLT, and nothing leaves Halted or Faulted (10_state.md R36, 40_engine.md
R107). -/
def Obligations.HaltedEnteredExactlyByHlt : Prop :=
  ∀ s t : State, step s = .next t →
    (s.run = .running → (t.run = .halted ↔
      s.pc.toNat < 128 ∧ decode (Memory.readWord s.rom s.pc.toNat) = .ok .hlt)) ∧
    (s.run ≠ .running → t.run = s.run)

/-- Where the PC goes (40_engine.md R104-R106, 43_control.md R163): it stays when the step ends the run;
otherwise it is the target of a taken jump, or PC + 1, at most 128.  That it stays is the spec's own
decision, for HLT D7 (log entry 9) and for a fault D4 (log entry 5); that a target or successor of 128 or
more is held without a fault is D3 (log entry 6). -/
def Obligations.NextPcIsTargetOrSuccessor : Prop :=
  ∀ s t : State, s.flags.j = false → s.run = .running → step s = .next t →
    (t.run ≠ .running → t.pc = s.pc) ∧
    (t.run = .running →
      (∃ n : Byte, t.pc = zext16 n ∧ t.regB = zext16 n ∧
        (decode (Memory.readWord s.rom s.pc.toNat) = .ok (.jmp n) ∨
         (decode (Memory.readWord s.rom s.pc.toNat) = .ok (.jc n) ∧ s.flags.c = true) ∨
         (decode (Memory.readWord s.rom s.pc.toNat) = .ok (.jz n) ∧ s.flags.z = true))) ∨
      (t.pc.toNat = s.pc.toNat + 1 ∧ t.pc.toNat ≤ 128))

/-- A taken jump has no delay slot: the next instruction executed is the target's (43_control.md R163,
70_reset_and_hazards.md R246). -/
def Obligations.TakenJumpHasNoDelaySlot : Prop :=
  ∀ (s : State) (n : Byte) (i : Instr), s.flags.j = false → s.run = .running →
    s.pc.toNat < 128 → n.toNat < 128 →
    (decode (Memory.readWord s.rom s.pc.toNat) = .ok (.jmp n) ∨
     (decode (Memory.readWord s.rom s.pc.toNat) = .ok (.jc n) ∧ s.flags.c = true) ∨
     (decode (Memory.readWord s.rom s.pc.toNat) = .ok (.jz n) ∧ s.flags.z = true)) →
    decode (Memory.readWord s.rom n.toNat) = .ok i →
    ∃ t : State, step s = .next t ∧ t = { s with regB := zext16 n, pc := zext16 n } ∧
      step t = exec i t

/-! ### Frames: what an instruction leaves unchanged.  `run` and `fault` change only where the data address
is out of range. -/

/-- LDA, LDR, LDI write regA and the PC only.  That a load that faults writes no register either is decision
D4 (log entry 5). -/
def Obligations.FrameOfAccumulatorLoads : Prop :=
  ∀ (i : Instr) (n : Byte) (s t : State), i = .lda n ∨ i = .ldr n ∨ i = .ldi n →
    s.flags.j = false → exec i s = .next t →
    t.regB = s.regB ∧ t.flags = s.flags ∧ t.out = s.out ∧
    (∀ k : Nat, Memory.readByte t.rom k = Memory.readByte s.rom k) ∧
    (∀ k : Nat, Memory.readByte t.ram k = Memory.readByte s.ram k) ∧
    (dataAddressOk i = true → t.run = s.run ∧ t.fault = s.fault)

/-- STA writes the two bytes of the RAM word at `ramAddress n` and the PC only; out of range it stores
nothing (60_exceptions.md R205, decision D4, log entry 5).  Which byte of a word has which key is log entry
1. -/
def Obligations.FrameOfSta : Prop :=
  ∀ (n : Byte) (s t : State), s.flags.j = false → exec (.sta n) s = .next t →
    t.regA = s.regA ∧ t.regB = s.regB ∧ t.flags = s.flags ∧ t.out = s.out ∧
    (∀ k : Nat, Memory.readByte t.rom k = Memory.readByte s.rom k) ∧
    (∀ a : Nat, (ramAddress n).toNat = a → ∀ k : Nat,
      k ≠ Memory.highKey a → k ≠ Memory.lowKey a →
      Memory.readByte t.ram k = Memory.readByte s.ram k) ∧
    (128 ≤ n.toNat → ∀ k : Nat, Memory.readByte t.ram k = Memory.readByte s.ram k) ∧
    (n.toNat < 128 → t.run = s.run ∧ t.fault = s.fault)

/-- ADD and ADI write regA, regB, C, Z and the PC only. -/
def Obligations.FrameOfAluAdds : Prop :=
  ∀ (i : Instr) (n : Byte) (s t : State), i = .add n ∨ i = .adi n →
    s.flags.j = false → exec i s = .next t →
    t.flags.j = s.flags.j ∧ t.out = s.out ∧
    (∀ k : Nat, Memory.readByte t.rom k = Memory.readByte s.rom k) ∧
    (∀ k : Nat, Memory.readByte t.ram k = Memory.readByte s.ram k) ∧
    (dataAddressOk i = true → t.run = s.run ∧ t.fault = s.fault)

/-- JMP, JC and JZ write regB (JC and JZ only when taken) and the PC only; J is clear again. -/
def Obligations.FrameOfJumps : Prop :=
  ∀ (i : Instr) (n : Byte) (s t : State), i = .jmp n ∨ i = .jc n ∨ i = .jz n →
    s.flags.j = false → exec i s = .next t →
    t.regA = s.regA ∧ t.flags = s.flags ∧ t.out = s.out ∧ t.run = s.run ∧ t.fault = s.fault ∧
    (i = .jc n → s.flags.c = false → t.regB = s.regB) ∧
    (i = .jz n → s.flags.z = false → t.regB = s.regB) ∧
    (∀ k : Nat, Memory.readByte t.rom k = Memory.readByte s.rom k) ∧
    (∀ k : Nat, Memory.readByte t.ram k = Memory.readByte s.ram k)

/-- NOP, SUB, ADR, OUT and HLT write no register, flag or memory; only OUT writes `out` and only HLT writes
`run`. -/
def Obligations.FrameOfNopSubAdrOutHlt : Prop :=
  ∀ (i : Instr) (n : Byte) (s t : State),
    i = .nop ∨ i = .sub n ∨ i = .adr n ∨ i = .out ∨ i = .hlt →
    s.flags.j = false → exec i s = .next t →
    t.regA = s.regA ∧ t.regB = s.regB ∧ t.flags = s.flags ∧ t.fault = s.fault ∧
    (i ≠ .out → t.out = s.out) ∧ (i ≠ .hlt → t.run = s.run) ∧
    (∀ k : Nat, Memory.readByte t.rom k = Memory.readByte s.rom k) ∧
    (∀ k : Nat, Memory.readByte t.ram k = Memory.readByte s.ram k)

/-! ### The assembler and the host boundary -/

/-- Text of at most 128 instructions assembles to their words, instruction k in slot k and 0 after the last;
longer text fails at its 129th mnemonic (30_encoding.md R81, R84, R86-R88; decision D13, log entry 18). -/
def Obligations.SourceTextAssemblesToEncodings : Prop :=
  ∀ is : List Instr,
    (is.length ≤ 128 →
      assemble (sourceText is) =
        .ok (is.map encode ++ List.replicate (128 - is.length) 0)) ∧
    (128 < is.length → ∃ (i : Instr) (row : OpcodeRow), is[128]? = some i ∧
      opcodeRow? (opcodeOf i) = some row ∧ assemble (sourceText is) = .error ⟨row.mnemonic⟩)

/-- Every image a successful assembly produces has 128 words, each one the assembler can write, so no
assembled program raises IllegalOpcode (R86, R93, 60_exceptions.md R203). -/
def Obligations.AssembledImageHasOnlyAssembledWords : Prop :=
  ∀ (text : List Char) (image : List Word), assemble text = .ok image →
    romImageWellFormed image = true ∧ ∀ w : Word, w ∈ image → isAssembledWord w = true

/-- An unrecognised token where an instruction is expected fails the assembly with that token, whatever was
assembled before it (R82, R92); so does a missing operand, with the mnemonic, or a malformed one, with
itself (R83).  Which mnemonics and digits count is the spec's own decision D13 (log entry 18).  Where 128
words are assembled already, that the operand's token is reported and not the mnemonic that has no slot is
the pseudocode's order (R93), log entry 17: R87 and R92 can be read otherwise. -/
def Obligations.BadTokenFailsAssembly : Prop :=
  ∀ (rom : List Word) (m : Token) (rest : List Token),
    (mnemonicRow? m = none → assembleFrom rom (m :: rest) = .error ⟨m⟩) ∧
    ∀ row : OpcodeRow, mnemonicRow? m = some row → row.takesOperand = true →
      (rest = [] → assembleFrom rom (m :: rest) = .error ⟨m⟩) ∧
      ∀ (t : Token) (rest' : List Token), rest = t :: rest' → parseOperand t = none →
        assembleFrom rom (m :: rest) = .error ⟨t⟩

/-- An operand token is one or more digits 0 to 9 with a value of at most 255, leading zeros allowed (R83).
The digit set and the refusal of a value above 255 are what R83 marks as the spec's own decision D13 (log
entry 18). -/
def Obligations.OperandTokenReadAsDecimal : Prop :=
  ∀ (t : Token) (n : Byte), parseOperand t = some n ↔
    (t ≠ [] ∧ (∀ c ∈ t, '0' ≤ c ∧ c ≤ '9') ∧ decimalValue t = n.toNat)

/-- Boot (70_reset_and_hazards.md R242, R243): an AssemblyError leaves no machine, only the error and a
non-zero exit status; otherwise the machine is powered on with the assembled image (R240), every other
element at its reset value, and nothing has been decided about the exit.  That a failed boot has no machine
state is log entry 26, and that the status is only zero or non-zero is log entry 20.  Of the reset values,
regA = regB = 0 is the spec's own decision D2 (log entry 3); that the image is loaded from outside the
machine before the first cycle is D9 (log entry 12). -/
def Obligations.BootStopsOnAssemblyErrorOrPowersOn : Prop :=
  ∀ text : List Char,
    (∀ e : AssemblyError, assemble text = .error e →
      boot text = .error e ∧ bootExitStatus text = some .nonZero) ∧
    (∀ image : List Word, assemble text = .ok image →
      bootExitStatus text = none ∧ ∃ s : State, boot text = .ok s ∧
        s = State.powerOn image ∧ s = { State.reset with rom := s.rom } ∧ s.Inv ∧ s.run = .running ∧
        ∀ a : Nat, Memory.readWord s.rom a = image.getD a 0)

/-- `run(n)` (40_engine.md R110; decision D14, log entries 14 and 25): it always answers a state, the same one as `n` steps, and running `m` more
cycles is running `n + m`. -/
def Obligations.BoundedRunIsIteratedStep : Prop :=
  ∀ (n : Nat) (s : State), ∃ t : State, hostRun n s = .next t ∧
    Host.Core.run core n s = .next t ∧
    ∀ m : Nat, hostRun m t = hostRun (n + m) s

/-- The exit status and the result of a run (60_exceptions.md R219, 40_engine.md R112 with decision D14; log
entries 20 and 25): 0 when Halted,
non-zero when Faulted, none while Running, and the result is what the state holds. -/
def Obligations.EndOfRunReportsStatusAndResult : Prop :=
  ∀ s : State,
    (s.exitStatus = some .zero ↔ s.run = .halted) ∧
    (s.exitStatus = some .nonZero ↔ s.run = .faulted) ∧
    (s.run = .running ↔ s.runResult = none) ∧
    ∀ r : RunResult, s.runResult = some r →
      r.out = s.out ∧ r.regA = s.regA ∧ r.regB = s.regB ∧ r.c = s.flags.c ∧ r.z = s.flags.z ∧
      r.pc = s.pc ∧ r.ram = s.ram ∧ r.fault = s.fault

/-- The console prints one base-10 integer without leading zeros for each output value, and each OUT
instruction emits one more, of the current regA (44_system_io.md R182). -/
def Obligations.ConsoleRendersDecimalWithoutLeadingZeros : Prop :=
  (∀ v : Word, decimalValue (renderValue v) = v.toNat ∧
    (∀ c ∈ renderValue v, '0' ≤ c ∧ c ≤ '9') ∧
    (v = 0 → renderValue v = ['0']) ∧
    (v ≠ 0 → ∃ (c : Char) (rest : List Char), renderValue v = c :: rest ∧ c ≠ '0')) ∧
  ∀ s : State, renderConsole s = s.out.map renderValue ∧
    ∃ t : State, exec .out s = .next t ∧ renderConsole t = renderConsole s ++ [renderValue s.regA]
end

