-- ==== Sys2Proof/Laws/Memory.lean ====
section
/-! SUPPORT. The laws of memory as byte cells: read after write, every write keeps the canonical form, and memories in canonical form that read alike are equal. -/

namespace Sys2Proof.Machine.Memory

@[simp] theorem readByte_nil (k : Nat) : readByte [] k = unlisted := rfl

theorem readByte_cons (key k : Nat) (b : Byte) (m : List Host.Cell) :
    readByte ((key, b) :: m) k = if key = k then b else readByte m k := rfl

/-- Cells whose keys all lie above `k` read `unlisted` at `k`. -/
theorem readByte_below {limit lo k : Nat} {m : List Host.Cell} (h : wfFrom limit lo m = true)
    (hk : k < lo) : readByte m k = unlisted := by
  induction m generalizing lo with
  | nil => rfl
  | cons cell m ih =>
    obtain ⟨key, b⟩ := cell
    simp only [wfFrom, Bool.and_eq_true, decide_eq_true_eq] at h
    rw [readByte_cons, if_neg (by omega)]
    exact ih h.2 (by omega)

theorem wfFrom_mono {limit lo lo' : Nat} {m : List Host.Cell} (h : wfFrom limit lo m = true)
    (hlo : lo' ≤ lo) : wfFrom limit lo' m = true := by
  cases m with
  | nil => rfl
  | cons cell m =>
    obtain ⟨key, b⟩ := cell
    simp only [wfFrom, Bool.and_eq_true, decide_eq_true_eq] at h ⊢
    exact ⟨⟨⟨by omega, h.1.1.2⟩, h.1.2⟩, h.2⟩

theorem wfFrom_consByte {limit lo k : Nat} {b : Byte} {m : List Host.Cell}
    (h : wfFrom limit (k + 1) m = true) (hlo : lo ≤ k) (hk : k < limit) :
    wfFrom limit lo (consByte k b m) = true := by
  unfold consByte
  split
  · exact wfFrom_mono h (by omega)
  · rename_i hb
    simp only [wfFrom, Bool.and_eq_true, decide_eq_true_eq]
    exact ⟨⟨⟨hlo, hk⟩, hb⟩, h⟩

theorem readByte_consByte_self {limit k : Nat} {b : Byte} {m : List Host.Cell}
    (h : wfFrom limit (k + 1) m = true) : readByte (consByte k b m) k = b := by
  unfold consByte
  split
  · rename_i hb; rw [readByte_below h (by omega), hb]
  · simp [readByte_cons]

theorem readByte_consByte_ne {k k' : Nat} (b : Byte) (m : List Host.Cell) (h : k' ≠ k) :
    readByte (consByte k b m) k' = readByte m k' := by
  unfold consByte
  split
  · rfl
  · rw [readByte_cons, if_neg (Ne.symm h)]

/-- A byte write leaves every other byte alone. -/
theorem readByte_writeByte_ne {k k' : Nat} (b : Byte) (m : List Host.Cell) (h : k' ≠ k) :
    readByte (writeByte m k b) k' = readByte m k' := by
  induction m with
  | nil => exact readByte_consByte_ne b [] h
  | cons cell m ih =>
    obtain ⟨key, c⟩ := cell
    unfold writeByte
    split
    · exact readByte_consByte_ne b _ h
    · split
      · rename_i hk
        rw [readByte_consByte_ne b _ h, readByte_cons, if_neg (by omega)]
      · rw [readByte_cons, readByte_cons, ih]

/-- A byte written reads back. -/
theorem readByte_writeByte_self {limit lo k : Nat} (b : Byte) {m : List Host.Cell}
    (h : wfFrom limit lo m = true) : readByte (writeByte m k b) k = b := by
  induction m generalizing lo with
  | nil => exact readByte_consByte_self (limit := 0) rfl
  | cons cell m ih =>
    obtain ⟨key, c⟩ := cell
    have h' := h
    simp only [wfFrom, Bool.and_eq_true, decide_eq_true_eq] at h'
    unfold writeByte
    split
    · rename_i hlt
      refine readByte_consByte_self (limit := limit) ?_
      simp only [wfFrom, Bool.and_eq_true, decide_eq_true_eq]
      exact ⟨⟨⟨hlt, h'.1.1.2⟩, h'.1.2⟩, h'.2⟩
    · split
      · rename_i heq
        exact readByte_consByte_self (limit := limit) (heq ▸ h'.2)
      · rename_i hlt hne
        rw [readByte_cons, if_neg (Ne.symm hne)]
        exact ih h'.2

/-- A byte write inside the space keeps the canonical form. -/
theorem wfFrom_writeByte {limit lo k : Nat} (b : Byte) {m : List Host.Cell}
    (h : wfFrom limit lo m = true) (hlo : lo ≤ k) (hk : k < limit) :
    wfFrom limit lo (writeByte m k b) = true := by
  induction m generalizing lo with
  | nil => exact wfFrom_consByte rfl hlo hk
  | cons cell m ih =>
    obtain ⟨key, c⟩ := cell
    simp only [wfFrom, Bool.and_eq_true, decide_eq_true_eq] at h
    unfold writeByte
    split
    · rename_i hlt
      refine wfFrom_consByte ?_ hlo hk
      simp only [wfFrom, Bool.and_eq_true, decide_eq_true_eq]
      exact ⟨⟨⟨hlt, h.1.1.2⟩, h.1.2⟩, h.2⟩
    · split
      · rename_i heq
        exact wfFrom_consByte (heq ▸ h.2) hlo hk
      · simp only [wfFrom, Bool.and_eq_true, decide_eq_true_eq]
        exact ⟨⟨⟨h.1.1.1, h.1.1.2⟩, h.1.2⟩, ih h.2 (by omega)⟩

/-- Cells in canonical form that read alike at every key are equal lists. -/
theorem eq_of_readByte {limit lo : Nat} {m m' : List Host.Cell} (h : wfFrom limit lo m = true)
    (h' : wfFrom limit lo m' = true) (hr : ∀ k, lo ≤ k → readByte m k = readByte m' k) : m = m' := by
  induction m generalizing lo m' with
  | nil =>
    cases m' with
    | nil => rfl
    | cons cell m' =>
      obtain ⟨key, b⟩ := cell
      simp only [wfFrom, Bool.and_eq_true, decide_eq_true_eq] at h'
      have := hr key h'.1.1.1
      simp [readByte_cons] at this
      exact absurd this.symm h'.1.2
  | cons cell m ih =>
    obtain ⟨key, b⟩ := cell
    have hw := h
    simp only [wfFrom, Bool.and_eq_true, decide_eq_true_eq] at h
    cases m' with
    | nil =>
      have := hr key h.1.1.1
      simp [readByte_cons] at this
      exact absurd this h.1.2
    | cons cell' m' =>
      obtain ⟨key', b'⟩ := cell'
      have hw' := h'
      simp only [wfFrom, Bool.and_eq_true, decide_eq_true_eq] at h'
      have hkey : key = key' := by
        rcases Nat.lt_trichotomy key key' with hlt | heq | hgt
        · have hx := hr key h.1.1.1
          rw [readByte_cons, if_pos rfl, readByte_cons, if_neg (by omega),
            readByte_below h'.2 (by omega)] at hx
          exact absurd hx h.1.2
        · exact heq
        · have hx := hr key' h'.1.1.1
          rw [readByte_cons, if_neg (by omega), readByte_below h.2 (by omega), readByte_cons,
            if_pos rfl] at hx
          exact absurd hx.symm h'.1.2
      subst hkey
      have hb := hr key h.1.1.1
      simp only [readByte_cons, if_true] at hb
      subst hb
      congr 1
      refine ih h.2 h'.2 fun k hk => ?_
      have hx := hr k (by omega)
      rwa [readByte_cons, readByte_cons, if_neg (by omega), if_neg (by omega)] at hx

/-! ### Words -/

/-- The number a high and a low byte make. -/
theorem toNat_append (h l : Byte) : (h ++ l : BitVec (8 + 8)).toNat = 256 * h.toNat + l.toNat := by
  have hl := l.isLt
  rw [BitVec.toNat_append, ← Nat.shiftLeft_add_eq_or_of_lt hl, Nat.shiftLeft_eq]
  omega

/-- A word is its two bytes. -/
theorem high_append_low (v : Word) :
    (v.extractLsb' 8 8 ++ v.extractLsb' 0 8 : BitVec (8 + 8)) = v := by
  have hv := v.isLt
  apply BitVec.eq_of_toNat_eq
  rw [toNat_append]
  simp only [BitVec.extractLsb'_toNat, Nat.shiftRight_eq_div_pow]
  omega

/-- Word `a` reads what it was last written. -/
theorem readWord_writeWord_self {words a : Nat} {m : List Host.Cell} (v : Word)
    (h : wf words m = true) (ha : a < words) : readWord (writeWord m a v) a = v := by
  have h1 : wfFrom (2 * words) 0 (writeByte m (highKey a) (v.extractLsb' 8 8)) = true :=
    wfFrom_writeByte _ h (by omega) (by unfold highKey; omega)
  unfold readWord writeWord
  rw [readByte_writeByte_self _ h1, readByte_writeByte_ne _ _ (by unfold highKey lowKey; omega),
    readByte_writeByte_self _ h]
  exact high_append_low v

/-- A word write leaves every byte outside the word alone. -/
theorem readByte_writeWord_ne {a k : Nat} (m : List Host.Cell) (v : Word)
    (hh : k ≠ highKey a) (hl : k ≠ lowKey a) : readByte (writeWord m a v) k = readByte m k := by
  unfold writeWord
  rw [readByte_writeByte_ne _ _ hl, readByte_writeByte_ne _ _ hh]

/-- A word write leaves every other word alone. -/
theorem readWord_writeWord_ne {a a' : Nat} (m : List Host.Cell) (v : Word) (h : a' ≠ a) :
    readWord (writeWord m a v) a' = readWord m a' := by
  unfold readWord
  rw [readByte_writeWord_ne m v (by unfold highKey; omega) (by unfold highKey lowKey; omega),
    readByte_writeWord_ne m v (by unfold highKey lowKey; omega) (by unfold lowKey; omega)]

/-- A word write inside the space keeps the canonical form. -/
theorem wf_writeWord {words a : Nat} {m : List Host.Cell} (v : Word) (h : wf words m = true)
    (ha : a < words) : wf words (writeWord m a v) = true :=
  wfFrom_writeByte _ (wfFrom_writeByte _ h (by omega) (by unfold highKey; omega)) (by omega)
    (by unfold lowKey; omega)

/-- No cell lies outside the space. -/
theorem readByte_beyond {limit lo k : Nat} {m : List Host.Cell} (h : wfFrom limit lo m = true)
    (hk : limit ≤ k) : readByte m k = unlisted := by
  induction m generalizing lo with
  | nil => rfl
  | cons cell m ih =>
    obtain ⟨key, b⟩ := cell
    simp only [wfFrom, Bool.and_eq_true, decide_eq_true_eq] at h
    rw [readByte_cons, if_neg (by omega)]
    exact ih h.2

/-- The bytes of a word. -/
theorem readByte_eq_of_readWord {m m' : List Host.Cell} {a : Nat} (h : readWord m a = readWord m' a) :
    readByte m (highKey a) = readByte m' (highKey a) ∧
      readByte m (lowKey a) = readByte m' (lowKey a) := by
  have hn : (readWord m a).toNat = (readWord m' a).toNat := congrArg BitVec.toNat h
  have b1 := (readByte m (lowKey a)).isLt
  have b2 := (readByte m' (lowKey a)).isLt
  unfold readWord at hn
  rw [toNat_append, toNat_append] at hn
  constructor <;> apply BitVec.eq_of_toNat_eq <;> omega

/-- Memories in canonical form that hold the same words are equal: equal memories are equal data. -/
theorem eq_of_readWord {words : Nat} {m m' : List Host.Cell} (h : wf words m = true)
    (h' : wf words m' = true) (hr : ∀ a, a < words → readWord m a = readWord m' a) : m = m' := by
  refine eq_of_readByte h h' fun k _ => ?_
  by_cases hk : k < 2 * words
  · have hw := readByte_eq_of_readWord (hr (k / 2) (by omega))
    unfold highKey lowKey at hw
    rcases Nat.mod_two_eq_zero_or_one k with h0 | h1
    · have : 2 * (k / 2) = k := by omega
      simpa [this] using hw.1
    · have : 2 * (k / 2) + 1 = k := by omega
      simpa [this] using hw.2
  · rw [readByte_beyond h (by omega), readByte_beyond h' (by omega)]

/-! ### A memory laid out from a list of words -/

theorem wfFrom_ofWordsFrom {words a : Nat} (ws : List Word) (h : a + ws.length ≤ words) :
    wfFrom (2 * words) (2 * a) (ofWordsFrom a ws) = true := by
  induction ws generalizing a with
  | nil => rfl
  | cons w ws ih =>
    simp only [List.length_cons] at h
    have hrest := ih (a := a + 1) (by omega)
    refine wfFrom_consByte (wfFrom_consByte (wfFrom_mono hrest ?_) ?_ ?_) ?_ ?_ <;>
      (simp only [highKey, lowKey]; omega)

theorem wf_ofWords {words : Nat} (ws : List Word) (h : ws.length ≤ words) :
    wf words (ofWords ws) = true :=
  wfFrom_ofWordsFrom (a := 0) ws (by omega)

theorem readByte_ofWordsFrom_cons {a : Nat} (w : Word) (ws : List Word) (k : Nat)
    (hh : k ≠ highKey a) (hl : k ≠ lowKey a) :
    readByte (ofWordsFrom a (w :: ws)) k = readByte (ofWordsFrom (a + 1) ws) k := by
  rw [ofWordsFrom, readByte_consByte_ne _ _ hh, readByte_consByte_ne _ _ hl]

/-- Word `a + i` of a laid-out list is its element `i`, and 0 past its end. -/
theorem readWord_ofWordsFrom (a i : Nat) (ws : List Word) :
    readWord (ofWordsFrom a ws) (a + i) = ws.getD i 0 := by
  induction ws generalizing a i with
  | nil => exact (by decide : (unlisted ++ unlisted : BitVec (8 + 8)) = 0)
  | cons w ws ih =>
    have hrest : wfFrom (2 * (a + 1 + ws.length)) (lowKey a + 1) (ofWordsFrom (a + 1) ws) = true :=
      wfFrom_mono (wfFrom_ofWordsFrom (a := a + 1) ws (Nat.le_refl _)) (by unfold lowKey; omega)
    have hlow : wfFrom (2 * (a + 1 + ws.length)) (highKey a + 1)
        (consByte (lowKey a) (w.extractLsb' 0 8) (ofWordsFrom (a + 1) ws)) = true :=
      wfFrom_consByte hrest (by unfold highKey lowKey; omega) (by unfold lowKey; omega)
    cases i with
    | zero =>
      change readWord (ofWordsFrom a (w :: ws)) a = w
      unfold readWord ofWordsFrom
      rw [readByte_consByte_self hlow,
        readByte_consByte_ne _ _ (by unfold highKey lowKey; omega), readByte_consByte_self hrest]
      exact high_append_low w
    | succ i =>
      have h := ih (a + 1) i
      rw [Nat.add_right_comm, Nat.add_assoc] at h
      rw [List.getD_cons_succ, ← h]
      unfold readWord
      rw [readByte_ofWordsFrom_cons w ws _ (by unfold highKey; omega) (by unfold highKey lowKey; omega),
        readByte_ofWordsFrom_cons w ws _ (by unfold highKey lowKey; omega) (by unfold lowKey; omega)]

theorem readWord_ofWords (ws : List Word) (i : Nat) : readWord (ofWords ws) i = ws.getD i 0 := by
  have h := readWord_ofWordsFrom 0 i ws
  rwa [Nat.zero_add] at h

end Sys2Proof.Machine.Memory
end

