-- ==== Sys2Proof/Laws/Decode.lean ====
section
/-! SUPPORT. The laws of the instruction format and of the opcode map: fields of a word, the rows an opcode selects, and the one inversion lemma of the decoder. -/

namespace Sys2Proof

@[simp] theorem opcodeField_instrWord (opcode operand : Byte) :
    opcodeField (instrWord opcode operand) = opcode := by
  apply BitVec.eq_of_toNat_eq
  have h : (instrWord opcode operand).toNat = 256 * opcode.toNat + operand.toNat :=
    Machine.Memory.toNat_append opcode operand
  have h1 := opcode.isLt
  have h2 := operand.isLt
  simp only [opcodeField, BitVec.extractLsb'_toNat, h, Nat.shiftRight_eq_div_pow]
  omega

@[simp] theorem operandField_instrWord (opcode operand : Byte) :
    operandField (instrWord opcode operand) = operand := by
  apply BitVec.eq_of_toNat_eq
  have h : (instrWord opcode operand).toNat = 256 * opcode.toNat + operand.toNat :=
    Machine.Memory.toNat_append opcode operand
  have h2 := operand.isLt
  simp only [operandField, BitVec.extractLsb'_toNat, h, Nat.shiftRight_eq_div_pow]
  omega

/-- A word is its two fields. -/
theorem instrWord_fields (w : Word) : instrWord (opcodeField w) (operandField w) = w :=
  Machine.Memory.high_append_low w

/-- Decoding a word given by its fields depends on the row alone. -/
theorem decode_instrWord (opcode operand : Byte) :
    decode (instrWord opcode operand) =
      match opcodeRow? opcode with
      | some row => .ok (row.build operand)
      | none => .error (.undefinedOpcode opcode) := by
  cases h : opcodeRow? opcode <;> simp [decode, h]

/-- What the decoder can answer: the instruction's opcode is the word's, and its operand is the word's
unless it is one of the three instructions that have none. -/
theorem decode_ok {w : Word} {i : Instr} (h : decode w = .ok i) :
    (i = .nop ∧ opcodeField w = 0x00) ∨ (i = .lda (operandField w) ∧ opcodeField w = 0x01) ∨
    (i = .sta (operandField w) ∧ opcodeField w = 0x02) ∨
    (i = .add (operandField w) ∧ opcodeField w = 0x03) ∨
    (i = .sub (operandField w) ∧ opcodeField w = 0x04) ∨ (i = .out ∧ opcodeField w = 0x05) ∨
    (i = .jmp (operandField w) ∧ opcodeField w = 0x06) ∨
    (i = .jc (operandField w) ∧ opcodeField w = 0x07) ∨
    (i = .jz (operandField w) ∧ opcodeField w = 0x08) ∨ (i = .hlt ∧ opcodeField w = 0x0A) ∨
    (i = .ldi (operandField w) ∧ opcodeField w = 0x10) ∨
    (i = .adi (operandField w) ∧ opcodeField w = 0x11) ∨
    (i = .ldr (operandField w) ∧ opcodeField w = 0x20) ∨
    (i = .adr (operandField w) ∧ opcodeField w = 0x21) := by
  unfold decode at h
  split at h
  · rename_i row hrow
    have hop := List.find?_some hrow
    have hmem := List.mem_of_find?_eq_some hrow
    have hop' : row.opcode = opcodeField w := by simpa using hop
    cases h
    simp only [opcodeMap, List.mem_cons, List.not_mem_nil, or_false] at hmem
    rcases hmem with h | h | h | h | h | h | h | h | h | h | h | h | h | h <;> subst h <;>
      simp [← hop']
  · cases h

/-- The opcode of a decoded instruction is the word's. -/
theorem opcodeOf_of_decode {w : Word} {i : Instr} (h : decode w = .ok i) :
    opcodeOf i = opcodeField w := by
  rcases decode_ok h with h | h | h | h | h | h | h | h | h | h | h | h | h | h <;>
    obtain ⟨rfl, hop⟩ := h <;> rw [hop] <;> rfl

/-- The opcode bytes the map has no row for. -/
theorem opcodeRow?_eq_none (op : Byte) :
    opcodeRow? op = none ↔ op ∉ opcodeMap.map OpcodeRow.opcode := by
  simp only [opcodeRow?, List.find?_eq_none, decide_eq_true_eq, List.mem_map, not_exists, not_and]

/-- The decoder names the opcode it rejects. -/
theorem decode_error {w : Word} {e : DecodeError} (h : decode w = .error e) :
    e = .undefinedOpcode (opcodeField w) ∧ opcodeRow? (opcodeField w) = none := by
  unfold decode at h
  split at h
  · cases h
  · rename_i hnone
    cases h
    exact ⟨rfl, hnone⟩

end Sys2Proof
end

