-- ==== Sys2Proof/Laws/State.lean ====
section
/-! SUPPORT. One lemma per field per update of State, so that no proof unfolds a record update. -/

namespace Sys2Proof.Machine

@[simp] theorem romWords_eq : Config.romWords = 128 := rfl

@[simp] theorem ramWords_eq : Config.ramWords = 128 := rfl

variable (s : State)

@[simp] theorem State.setRegA_regA (v : Word) : (s.setRegA v).regA = v := rfl
@[simp] theorem State.setRegA_regB (v : Word) : (s.setRegA v).regB = s.regB := rfl
@[simp] theorem State.setRegA_pc (v : Word) : (s.setRegA v).pc = s.pc := rfl
@[simp] theorem State.setRegA_rom (v : Word) : (s.setRegA v).rom = s.rom := rfl
@[simp] theorem State.setRegA_ram (v : Word) : (s.setRegA v).ram = s.ram := rfl
@[simp] theorem State.setRegA_out (v : Word) : (s.setRegA v).out = s.out := rfl
@[simp] theorem State.setRegA_run (v : Word) : (s.setRegA v).run = s.run := rfl
@[simp] theorem State.setRegA_fault (v : Word) : (s.setRegA v).fault = s.fault := rfl
@[simp] theorem State.setRegA_c (v : Word) : (s.setRegA v).flags.c = s.flags.c := rfl
@[simp] theorem State.setRegA_z (v : Word) : (s.setRegA v).flags.z = s.flags.z := rfl
@[simp] theorem State.setRegA_j (v : Word) : (s.setRegA v).flags.j = s.flags.j := rfl

@[simp] theorem State.setRegB_regA (v : Word) : (s.setRegB v).regA = s.regA := rfl
@[simp] theorem State.setRegB_regB (v : Word) : (s.setRegB v).regB = v := rfl
@[simp] theorem State.setRegB_pc (v : Word) : (s.setRegB v).pc = s.pc := rfl
@[simp] theorem State.setRegB_rom (v : Word) : (s.setRegB v).rom = s.rom := rfl
@[simp] theorem State.setRegB_ram (v : Word) : (s.setRegB v).ram = s.ram := rfl
@[simp] theorem State.setRegB_out (v : Word) : (s.setRegB v).out = s.out := rfl
@[simp] theorem State.setRegB_run (v : Word) : (s.setRegB v).run = s.run := rfl
@[simp] theorem State.setRegB_fault (v : Word) : (s.setRegB v).fault = s.fault := rfl
@[simp] theorem State.setRegB_c (v : Word) : (s.setRegB v).flags.c = s.flags.c := rfl
@[simp] theorem State.setRegB_z (v : Word) : (s.setRegB v).flags.z = s.flags.z := rfl
@[simp] theorem State.setRegB_j (v : Word) : (s.setRegB v).flags.j = s.flags.j := rfl

@[simp] theorem State.aluAddRegs_regA : s.aluAddRegs.regA = aluSum s.regA s.regB := rfl
@[simp] theorem State.aluAddRegs_regB : s.aluAddRegs.regB = s.regB := rfl
@[simp] theorem State.aluAddRegs_pc : s.aluAddRegs.pc = s.pc := rfl
@[simp] theorem State.aluAddRegs_rom : s.aluAddRegs.rom = s.rom := rfl
@[simp] theorem State.aluAddRegs_ram : s.aluAddRegs.ram = s.ram := rfl
@[simp] theorem State.aluAddRegs_out : s.aluAddRegs.out = s.out := rfl
@[simp] theorem State.aluAddRegs_run : s.aluAddRegs.run = s.run := rfl
@[simp] theorem State.aluAddRegs_fault : s.aluAddRegs.fault = s.fault := rfl
@[simp] theorem State.aluAddRegs_c : s.aluAddRegs.flags.c = aluCarry s.regA s.regB := rfl
@[simp] theorem State.aluAddRegs_z : s.aluAddRegs.flags.z = aluZero (aluSum s.regA s.regB) := rfl
@[simp] theorem State.aluAddRegs_j : s.aluAddRegs.flags.j = s.flags.j := rfl

@[simp] theorem State.requestJump_regA (v : Word) : (s.requestJump v).regA = s.regA := rfl
@[simp] theorem State.requestJump_regB (v : Word) : (s.requestJump v).regB = v := rfl
@[simp] theorem State.requestJump_pc (v : Word) : (s.requestJump v).pc = s.pc := rfl
@[simp] theorem State.requestJump_rom (v : Word) : (s.requestJump v).rom = s.rom := rfl
@[simp] theorem State.requestJump_ram (v : Word) : (s.requestJump v).ram = s.ram := rfl
@[simp] theorem State.requestJump_out (v : Word) : (s.requestJump v).out = s.out := rfl
@[simp] theorem State.requestJump_run (v : Word) : (s.requestJump v).run = s.run := rfl
@[simp] theorem State.requestJump_fault (v : Word) : (s.requestJump v).fault = s.fault := rfl
@[simp] theorem State.requestJump_c (v : Word) : (s.requestJump v).flags.c = s.flags.c := rfl
@[simp] theorem State.requestJump_z (v : Word) : (s.requestJump v).flags.z = s.flags.z := rfl
@[simp] theorem State.requestJump_j (v : Word) : (s.requestJump v).flags.j = true := rfl

@[simp] theorem State.emit_regA (v : Word) : (s.emit v).regA = s.regA := rfl
@[simp] theorem State.emit_regB (v : Word) : (s.emit v).regB = s.regB := rfl
@[simp] theorem State.emit_pc (v : Word) : (s.emit v).pc = s.pc := rfl
@[simp] theorem State.emit_rom (v : Word) : (s.emit v).rom = s.rom := rfl
@[simp] theorem State.emit_ram (v : Word) : (s.emit v).ram = s.ram := rfl
@[simp] theorem State.emit_out (v : Word) : (s.emit v).out = s.out ++ [v] := rfl
@[simp] theorem State.emit_run (v : Word) : (s.emit v).run = s.run := rfl
@[simp] theorem State.emit_fault (v : Word) : (s.emit v).fault = s.fault := rfl
@[simp] theorem State.emit_c (v : Word) : (s.emit v).flags.c = s.flags.c := rfl
@[simp] theorem State.emit_z (v : Word) : (s.emit v).flags.z = s.flags.z := rfl
@[simp] theorem State.emit_j (v : Word) : (s.emit v).flags.j = s.flags.j := rfl

@[simp] theorem State.halt_regA : s.halt.regA = s.regA := rfl
@[simp] theorem State.halt_regB : s.halt.regB = s.regB := rfl
@[simp] theorem State.halt_pc : s.halt.pc = s.pc := rfl
@[simp] theorem State.halt_rom : s.halt.rom = s.rom := rfl
@[simp] theorem State.halt_ram : s.halt.ram = s.ram := rfl
@[simp] theorem State.halt_out : s.halt.out = s.out := rfl
@[simp] theorem State.halt_run : s.halt.run = .halted := rfl
@[simp] theorem State.halt_fault : s.halt.fault = s.fault := rfl
@[simp] theorem State.halt_c : s.halt.flags.c = s.flags.c := rfl
@[simp] theorem State.halt_z : s.halt.flags.z = s.flags.z := rfl
@[simp] theorem State.halt_j : s.halt.flags.j = s.flags.j := rfl

@[simp] theorem State.raise_regA (r : FaultRecord) : (s.raise r).regA = s.regA := rfl
@[simp] theorem State.raise_regB (r : FaultRecord) : (s.raise r).regB = s.regB := rfl
@[simp] theorem State.raise_pc (r : FaultRecord) : (s.raise r).pc = s.pc := rfl
@[simp] theorem State.raise_rom (r : FaultRecord) : (s.raise r).rom = s.rom := rfl
@[simp] theorem State.raise_ram (r : FaultRecord) : (s.raise r).ram = s.ram := rfl
@[simp] theorem State.raise_out (r : FaultRecord) : (s.raise r).out = s.out := rfl
@[simp] theorem State.raise_run (r : FaultRecord) : (s.raise r).run = .faulted := rfl
@[simp] theorem State.raise_fault (r : FaultRecord) : (s.raise r).fault = some r := rfl
@[simp] theorem State.raise_c (r : FaultRecord) : (s.raise r).flags.c = s.flags.c := rfl
@[simp] theorem State.raise_z (r : FaultRecord) : (s.raise r).flags.z = s.flags.z := rfl
@[simp] theorem State.raise_j (r : FaultRecord) : (s.raise r).flags.j = s.flags.j := rfl

@[simp] theorem pcReset_regA : (pcReset s).regA = s.regA := rfl
@[simp] theorem pcReset_regB : (pcReset s).regB = s.regB := rfl
@[simp] theorem pcReset_pc : (pcReset s).pc = Config.resetPc := rfl
@[simp] theorem pcReset_rom : (pcReset s).rom = s.rom := rfl
@[simp] theorem pcReset_ram : (pcReset s).ram = s.ram := rfl
@[simp] theorem pcReset_out : (pcReset s).out = s.out := rfl
@[simp] theorem pcReset_run : (pcReset s).run = s.run := rfl
@[simp] theorem pcReset_fault : (pcReset s).fault = s.fault := rfl
@[simp] theorem pcReset_c : (pcReset s).flags.c = s.flags.c := rfl
@[simp] theorem pcReset_z : (pcReset s).flags.z = s.flags.z := rfl
@[simp] theorem pcReset_j : (pcReset s).flags.j = s.flags.j := rfl

@[simp] theorem State.advance_regA : s.advance.regA = s.regA := by
  unfold State.advance; split <;> rfl
@[simp] theorem State.advance_regB : s.advance.regB = s.regB := by
  unfold State.advance; split <;> rfl
@[simp] theorem State.advance_rom : s.advance.rom = s.rom := by
  unfold State.advance; split <;> rfl
@[simp] theorem State.advance_ram : s.advance.ram = s.ram := by
  unfold State.advance; split <;> rfl
@[simp] theorem State.advance_out : s.advance.out = s.out := by
  unfold State.advance; split <;> rfl
@[simp] theorem State.advance_run : s.advance.run = s.run := by
  unfold State.advance; split <;> rfl
@[simp] theorem State.advance_fault : s.advance.fault = s.fault := by
  unfold State.advance; split <;> rfl
@[simp] theorem State.advance_c : s.advance.flags.c = s.flags.c := by
  unfold State.advance; split <;> rfl
@[simp] theorem State.advance_z : s.advance.flags.z = s.flags.z := by
  unfold State.advance; split <;> rfl
@[simp] theorem State.advance_j : s.advance.flags.j = false := by
  unfold State.advance
  split
  · rfl
  · rename_i h; simpa using h

theorem State.advance_pc : s.advance.pc = if s.flags.j then s.regB else s.pc + 1 := by
  unfold State.advance; split <;> rfl

/-- With J clear the advance only increments the PC. -/
theorem State.advance_of_noJump (h : s.flags.j = false) : s.advance = { s with pc := s.pc + 1 } := by
  simp [State.advance, h]

/-- A requested jump lands in the advance of its own cycle. -/
theorem State.advance_requestJump (v : Word) (h : s.flags.j = false) :
    (s.requestJump v).advance = { s with regB := v, pc := v } := by
  obtain ⟨_, _, _, ⟨_, _, j⟩, _, _, _, _, _⟩ := s
  cases h
  rfl

/-- Two states are equal when all their elements are. -/
theorem State.ext_fields {s t : State} (hA : s.regA = t.regA) (hB : s.regB = t.regB)
    (hpc : s.pc = t.pc) (hc : s.flags.c = t.flags.c) (hz : s.flags.z = t.flags.z)
    (hj : s.flags.j = t.flags.j) (hrom : s.rom = t.rom) (hram : s.ram = t.ram)
    (hout : s.out = t.out) (hrun : s.run = t.run) (hfault : s.fault = t.fault) : s = t := by
  obtain ⟨_, _, _, ⟨_, _, _⟩, _, _, _, _, _⟩ := s
  obtain ⟨_, _, _, ⟨_, _, _⟩, _, _, _, _, _⟩ := t
  simp_all

end Sys2Proof.Machine
end

