-- ==== Sys2Proof/Laws/Assembler.lean ====
section
/-! SUPPORT. The laws of the assembler: decimal tokens, the splitting of text into tokens, and one lemma per way its loop can go. -/

namespace Sys2Proof.Machine

/-! ### Decimal tokens -/

/-- A number written in decimal reads back. -/
theorem decimalValue_toDigits (n : Nat) : decimalValue (Nat.toDigits 10 n) = n :=
  Nat.ofDigitChars_toDigits (by omega) (by omega)

theorem isDecimalDigit_eq_isDigit (c : Char) : isDecimalDigit c = c.isDigit := by
  rw [Bool.eq_iff_iff, Char.isDigit, isDecimalDigit]
  simp only [Bool.and_eq_true, decide_eq_true_eq, ge_iff_le, UInt32.le_iff_toNat_le]
  exact Iff.rfl

theorem all_isDecimalDigit_toDigits (n : Nat) : (Nat.toDigits 10 n).all isDecimalDigit = true := by
  rw [List.all_eq_true]
  intro c hc
  rw [isDecimalDigit_eq_isDigit]
  exact Nat.isDigit_of_mem_toDigits (by omega) (by omega) hc

theorem toDigits_ne_nil (n : Nat) : Nat.toDigits 10 n ≠ [] := Nat.toDigits_ne_nil

/-- An operand written in decimal is read as itself. -/
theorem parseOperand_toDigits (n : Byte) : parseOperand (Nat.toDigits 10 n.toNat) = some n := by
  have hn := n.isLt
  rw [parseOperand, if_pos ⟨toDigits_ne_nil _, all_isDecimalDigit_toDigits _, by
    rw [decimalValue_toDigits]; omega⟩, decimalValue_toDigits, BitVec.ofNat_toNat, BitVec.setWidth_eq]

/-! ### Tokens -/

/-- A token's characters are read up to the whitespace that ends it. -/
theorem tokenizeFrom_append (current t text : List Char) (ht : ∀ c ∈ t, isWhitespace c = false) :
    tokenizeFrom current (t ++ text) = tokenizeFrom (t.reverse ++ current) text := by
  induction t generalizing current with
  | nil => rfl
  | cons c t ih =>
    have hc := ht c (by simp)
    rw [List.cons_append, tokenizeFrom, hc, if_neg (by simp),
      ih _ fun c' h => ht c' (by simp [h])]
    simp

/-- Text with one token a line splits into those tokens. -/
theorem tokenize_lines (ts : List Token) (hne : ∀ t ∈ ts, t ≠ [])
    (hws : ∀ t ∈ ts, ∀ c ∈ t, isWhitespace c = false) :
    tokenize (ts.flatMap fun t => t ++ [Char.ofNat 0x0A]) = ts := by
  induction ts with
  | nil => rfl
  | cons t ts ih =>
    have ht := hne t (by simp)
    have ih' := ih (fun t' h => hne t' (by simp [h])) (fun t' h => hws t' (by simp [h]))
    rw [tokenize] at ih' ⊢
    rw [List.flatMap_cons, List.append_assoc, tokenizeFrom_append _ _ _ (hws t (by simp))]
    rw [List.append_nil, List.singleton_append, tokenizeFrom, if_pos (by decide), ih', closeToken,
      if_neg (by simpa using ht), List.reverse_reverse]

theorem isWhitespace_of_isDecimalDigit {c : Char} (h : isDecimalDigit c = true) :
    isWhitespace c = false := by
  simp only [isDecimalDigit, Bool.and_eq_true, decide_eq_true_eq] at h
  simp only [isWhitespace, List.mem_cons, List.not_mem_nil, or_false, decide_eq_false_iff_not]
  omega

/-- The tokens of an instruction: its row's mnemonic, and its operand in decimal if the row takes one. -/
theorem instrTokens_cases (i : Instr) : ∃ row, opcodeRow? (opcodeOf i) = some row ∧
    mnemonicRow? row.mnemonic = some row ∧ row.mnemonic ≠ [] ∧
    (∀ c ∈ row.mnemonic, isWhitespace c = false) ∧ row.opcode = opcodeOf i ∧
    ((row.takesOperand = true ∧
        instrTokens i = [row.mnemonic, Nat.toDigits 10 (operandOf i).toNat]) ∨
      (row.takesOperand = false ∧ operandOf i = 0 ∧ instrTokens i = [row.mnemonic])) := by
  cases i <;> refine ⟨_, rfl, rfl, by simp, by simp [isWhitespace], rfl, ?_⟩ <;>
    first
      | exact .inl ⟨rfl, rfl⟩
      | exact .inr ⟨rfl, rfl, rfl⟩

theorem instrTokens_ne_nil {i : Instr} {t : Token} (h : t ∈ instrTokens i) : t ≠ [] := by
  obtain ⟨row, _, _, hne, _, _, ⟨_, ht⟩ | ⟨_, _, ht⟩⟩ := instrTokens_cases i <;> rw [ht] at h <;>
    simp only [List.mem_cons, List.not_mem_nil, or_false] at h
  · rcases h with rfl | rfl
    · exact hne
    · exact toDigits_ne_nil _
  · exact h ▸ hne

theorem instrTokens_noWhitespace {i : Instr} {t : Token} (h : t ∈ instrTokens i) :
    ∀ c ∈ t, isWhitespace c = false := by
  obtain ⟨row, _, _, _, hws, _, ⟨_, ht⟩ | ⟨_, _, ht⟩⟩ := instrTokens_cases i <;> rw [ht] at h <;>
    simp only [List.mem_cons, List.not_mem_nil, or_false] at h
  · rcases h with rfl | rfl
    · exact hws
    · intro c hc
      have := List.all_eq_true.mp (all_isDecimalDigit_toDigits _) c hc
      exact isWhitespace_of_isDecimalDigit this
  · exact h ▸ hws

/-- Program text splits into the tokens it was written from. -/
theorem tokenize_sourceText (is : List Instr) : tokenize (sourceText is) = is.flatMap instrTokens :=
  tokenize_lines _
    (fun t h => by
      obtain ⟨i, _, hi⟩ := List.mem_flatMap.mp h
      exact instrTokens_ne_nil hi)
    (fun t h => by
      obtain ⟨i, _, hi⟩ := List.mem_flatMap.mp h
      exact instrTokens_noWhitespace hi)

/-! ### The loop -/

theorem emitInstr_of_lt {m : Token} {row : OpcodeRow} {v : Byte} {rom : List Word}
    (h : rom.length < 128) : emitInstr m row v rom = .ok (rom ++ [instrWord row.opcode v]) :=
  if_neg (Nat.ne_of_lt h)

theorem emitInstr_of_full {m : Token} {row : OpcodeRow} {v : Byte} {rom : List Word}
    (h : rom.length = 128) : emitInstr m row v rom = .error ⟨m⟩ := if_pos h

theorem emitInstr_ok {m : Token} {row : OpcodeRow} {v : Byte} {rom rom' : List Word}
    (h : emitInstr m row v rom = .ok rom') :
    rom.length ≠ 128 ∧ rom' = rom ++ [instrWord row.opcode v] := by
  unfold emitInstr at h
  split at h
  · cases h
  · rename_i hne
    cases h
    exact ⟨hne, rfl⟩

/-- One instruction's tokens with a free slot: its word goes into the slot. -/
theorem assembleFrom_instr (i : Instr) (rom : List Word) (rest : List Token) (h : rom.length < 128) :
    assembleFrom rom (instrTokens i ++ rest) = assembleFrom (rom ++ [encode i]) rest := by
  obtain ⟨row, _, hm, _, _, hop, ⟨hto, ht⟩ | ⟨hto, h0, ht⟩⟩ := instrTokens_cases i <;>
    rw [ht]
  · simp only [List.cons_append, List.nil_append, assembleFrom, hm, hto, if_true,
      parseOperand_toDigits, emitInstr_of_lt h, hop, encode]
  · simp only [List.cons_append, List.nil_append, assembleFrom, hm, hto, Bool.false_eq_true, if_false,
      emitInstr_of_lt h, hop, encode, h0]

/-- One instruction's tokens with all slots full: the error is at its mnemonic. -/
theorem assembleFrom_instr_full (i : Instr) (rom : List Word) (rest : List Token)
    (h : rom.length = 128) : ∃ row, opcodeRow? (opcodeOf i) = some row ∧
      assembleFrom rom (instrTokens i ++ rest) = .error ⟨row.mnemonic⟩ := by
  obtain ⟨row, hr, hm, _, _, _, ⟨hto, ht⟩ | ⟨hto, _, ht⟩⟩ := instrTokens_cases i <;>
    refine ⟨row, hr, ?_⟩ <;> rw [ht]
  · simp only [List.cons_append, List.nil_append, assembleFrom, hm, hto, if_true,
      parseOperand_toDigits, emitInstr_of_full h]
  · simp only [List.cons_append, List.nil_append, assembleFrom, hm, hto, Bool.false_eq_true, if_false,
      emitInstr_of_full h]

/-- A mnemonic with an operand token, alone: its word, and 0 in the other slots. -/
theorem assembleTokens_operand {m t : Token} {row : OpcodeRow} {n : Byte}
    (hm : mnemonicRow? m = some row) (hto : row.takesOperand = true) (hp : parseOperand t = some n) :
    assembleTokens [m, t] = .ok (instrWord row.opcode n :: List.replicate 127 0) := by
  simp [assembleTokens, assembleFrom, hm, hto, hp, emitInstr, Except.map, padImage]

/-- A mnemonic without operand, alone. -/
theorem assembleTokens_plain {m : Token} {row : OpcodeRow} (hm : mnemonicRow? m = some row)
    (hto : row.takesOperand = false) :
    assembleTokens [m] = .ok (instrWord row.opcode 0 :: List.replicate 127 0) := by
  simp [assembleTokens, assembleFrom, hm, hto, emitInstr, Except.map, padImage]

/-- A successful loop fills at most 128 slots, each with a word of a row of the map, operand 0 where the
row takes none. -/
theorem assembleFrom_ok {rom rom' : List Word} {tokens : List Token}
    (h : assembleFrom rom tokens = .ok rom') (hlen : rom.length ≤ 128) :
    rom'.length ≤ 128 ∧ ∀ w ∈ rom', w ∈ rom ∨ ∃ row ∈ opcodeMap, ∃ v : Byte,
      w = instrWord row.opcode v ∧ (row.takesOperand = false → v = 0) := by
  fun_induction assembleFrom rom tokens with
  | case1 => cases h; exact ⟨hlen, fun w hw => .inl hw⟩
  | case2 => cases h
  | case3 => cases h
  | case4 => cases h
  | case5 => cases h
  | case6 rom m row hm hto t rest' v hv rom'' he ih =>
    obtain ⟨hne, rfl⟩ := emitInstr_ok he
    obtain ⟨h1, h2⟩ := ih h (by simp; omega)
    refine ⟨h1, fun w hw => ?_⟩
    rcases h2 w hw with h | h
    · rcases List.mem_append.mp h with h | h
      · exact .inl h
      · exact .inr ⟨row, List.mem_of_find?_eq_some hm, v, by simpa using h, by simp [hto]⟩
    · exact .inr h
  | case7 => cases h
  | case8 rom m rest row hm hto rom'' he ih =>
    obtain ⟨hne, rfl⟩ := emitInstr_ok he
    obtain ⟨h1, h2⟩ := ih h (by simp; omega)
    refine ⟨h1, fun w hw => ?_⟩
    rcases h2 w hw with h | h
    · rcases List.mem_append.mp h with h | h
      · exact .inl h
      · exact .inr ⟨row, List.mem_of_find?_eq_some hm, 0, by simpa using h, fun _ => rfl⟩
    · exact .inr h

end Sys2Proof.Machine
end

