-- ==== Sys2Proof/Laws/Ops.lean ====
section
/-! SUPPORT. What each shared operation can do, once: operand assembly, the ALU, the bounds-checked accesses and the end of a cycle with a data access. -/

namespace Sys2Proof.Machine

@[simp] theorem zext16_toNat (n : Byte) : (zext16 n).toNat = n.toNat := by
  have := n.isLt
  simp only [zext16, BitVec.toNat_setWidth]
  omega

theorem zext16_le (n : Byte) : (zext16 n).toNat ≤ 255 := by
  have := n.isLt
  rw [zext16_toNat]; omega

theorem aluSum_toNat (a b : Word) : (aluSum a b).toNat = (a.toNat + b.toNat) % 65536 :=
  BitVec.toNat_add a b

theorem aluCarry_iff (a b : Word) :
    aluCarry a b = true ↔ a.toNat > 0 ∧ b.toNat > 0xFFFF - a.toNat := by
  simp [aluCarry]

theorem aluZero_iff (r : Word) : aluZero r = true ↔ r.toNat = 0 := by
  simp [aluZero, ← BitVec.toNat_inj]

theorem aluAdd_j (a b : Word) (f : Flags) : (aluAdd a b f).2.j = f.j := rfl

@[simp] theorem Access.map_done {α β : Type} (f : α → β) (v : α) :
    (Access.done v).map f = .done (f v) := rfl

@[simp] theorem Access.map_addressFault {α β : Type} (f : α → β) (addr : Word) :
    (Access.addressFault addr).map f = .addressFault addr := rfl

theorem State.romRead_of_lt {s : State} {addr : Word} (h : addr.toNat < 128) :
    s.romRead addr = .done (Memory.readWord s.rom addr.toNat) := if_pos h

theorem State.romRead_of_le {s : State} {addr : Word} (h : 128 ≤ addr.toNat) :
    s.romRead addr = .addressFault addr := if_neg (Nat.not_lt.mpr h)

theorem State.memRead_of_lt {s : State} {addr : Word} (h : addr.toNat < 128) :
    s.memRead addr = .done (Memory.readWord s.ram addr.toNat) := if_pos h

theorem State.memRead_of_le {s : State} {addr : Word} (h : 128 ≤ addr.toNat) :
    s.memRead addr = .addressFault addr := if_neg (Nat.not_lt.mpr h)

theorem State.memWrite_of_lt {s : State} {addr v : Word} (h : addr.toNat < 128) :
    s.memWrite addr v = .done { s with ram := Memory.writeWord s.ram addr.toNat v } := if_pos h

theorem State.memWrite_of_le {s : State} {addr v : Word} (h : 128 ≤ addr.toNat) :
    s.memWrite addr v = .addressFault addr := if_neg (Nat.not_lt.mpr h)

/-- A cycle with a data access ends with the PC advance or by raising that access's AddressFault. -/
theorem State.finishAccess_next {s t : State} {kind : AccessKind} {op : Byte} {r : Access State}
    (h : s.finishAccess kind op r = .next t) :
    (∃ u, r = .done u ∧ t = u.advance) ∨
      (∃ addr, r = .addressFault addr ∧ t = s.raise (.ofAddressFault kind addr s.pc (some op))) := by
  cases r with
  | done u => cases h; exact .inl ⟨u, rfl, rfl⟩
  | addressFault addr => cases h; exact .inr ⟨addr, rfl, rfl⟩

/-- What a RAM or ROM read followed by a register update answers, address in range. -/
theorem State.finishAccess_memRead_of_lt {s : State} {op n : Byte} (f : Word → State)
    (h : n.toNat < 128) :
    s.finishAccess .ramRead op ((s.memRead (ramAddress n)).map f) =
      .next (f (Memory.readWord s.ram n.toNat)).advance := by
  have hn : (ramAddress n).toNat = n.toNat := zext16_toNat n
  rw [State.memRead_of_lt (by rw [hn]; exact h), hn]; rfl

theorem State.finishAccess_memRead_of_le {s : State} {op n : Byte} (f : Word → State)
    (h : 128 ≤ n.toNat) :
    s.finishAccess .ramRead op ((s.memRead (ramAddress n)).map f) =
      .next (s.raise (.ofAddressFault .ramRead (zext16 n) s.pc (some op))) := by
  have hn : (ramAddress n).toNat = n.toNat := zext16_toNat n
  rw [State.memRead_of_le (by rw [hn]; exact h)]; rfl

theorem State.finishAccess_romRead_of_lt {s : State} {op n : Byte} (f : Word → State)
    (h : n.toNat < 128) :
    s.finishAccess .romRead op ((s.romRead (romAddress n)).map f) =
      .next (f (Memory.readWord s.rom n.toNat)).advance := by
  have hn : (romAddress n).toNat = n.toNat := zext16_toNat n
  rw [State.romRead_of_lt (by rw [hn]; exact h), hn]; rfl

theorem State.finishAccess_romRead_of_le {s : State} {op n : Byte} (f : Word → State)
    (h : 128 ≤ n.toNat) :
    s.finishAccess .romRead op ((s.romRead (romAddress n)).map f) =
      .next (s.raise (.ofAddressFault .romRead (zext16 n) s.pc (some op))) := by
  have hn : (romAddress n).toNat = n.toNat := zext16_toNat n
  rw [State.romRead_of_le (by rw [hn]; exact h)]; rfl

theorem State.finishAccess_memWrite_of_lt {s : State} {op n : Byte} {v : Word} (h : n.toNat < 128) :
    s.finishAccess .ramWrite op (s.memWrite (ramAddress n) v) =
      .next ({ s with ram := Memory.writeWord s.ram n.toNat v } : State).advance := by
  have hn : (ramAddress n).toNat = n.toNat := zext16_toNat n
  rw [State.memWrite_of_lt (by rw [hn]; exact h), hn]; rfl

theorem State.finishAccess_memWrite_of_le {s : State} {op n : Byte} {v : Word} (h : 128 ≤ n.toNat) :
    s.finishAccess .ramWrite op (s.memWrite (ramAddress n) v) =
      .next (s.raise (.ofAddressFault .ramWrite (zext16 n) s.pc (some op))) := by
  have hn : (ramAddress n).toNat = n.toNat := zext16_toNat n
  rw [State.memWrite_of_le (by rw [hn]; exact h)]; rfl

end Sys2Proof.Machine
end

