-- ==== Sys2Proof/Laws/PerInstr.lean ====
section
/-! SUPPORT. Per-instruction families. Encoding: the two fields of an instruction's word are its opcode and its operand byte, and its opcode selects the row that builds it. -/

namespace Sys2Proof.Laws.Encoding

/-- The fields of `encode i` and the row its opcode selects. -/
def Statement (i : Instr) : Prop :=
  opcodeField (encode i) = opcodeOf i ∧ operandField (encode i) = operandOf i ∧
    (opcodeRow? (opcodeOf i)).map (fun row => row.build (operandOf i)) = some i

theorem statement_of_row {i : Instr}
    (h : (opcodeRow? (opcodeOf i)).map (fun row => row.build (operandOf i)) = some i) :
    Statement i :=
  ⟨opcodeField_instrWord _ _, operandField_instrWord _ _, h⟩

theorem nop : Statement .nop := statement_of_row rfl
theorem lda (n : Byte) : Statement (.lda n) := statement_of_row rfl
theorem sta (n : Byte) : Statement (.sta n) := statement_of_row rfl
theorem add (n : Byte) : Statement (.add n) := statement_of_row rfl
theorem sub (n : Byte) : Statement (.sub n) := statement_of_row rfl
theorem out : Statement .out := statement_of_row rfl
theorem jmp (n : Byte) : Statement (.jmp n) := statement_of_row rfl
theorem jc (n : Byte) : Statement (.jc n) := statement_of_row rfl
theorem jz (n : Byte) : Statement (.jz n) := statement_of_row rfl
theorem hlt : Statement .hlt := statement_of_row rfl
theorem ldi (n : Byte) : Statement (.ldi n) := statement_of_row rfl
theorem adi (n : Byte) : Statement (.adi n) := statement_of_row rfl
theorem ldr (n : Byte) : Statement (.ldr n) := statement_of_row rfl
theorem adr (n : Byte) : Statement (.adr n) := statement_of_row rfl

end Sys2Proof.Laws.Encoding
end

