-- ==== Sys2Proof/Laws/Step.lean ====
section
/-! SUPPORT. What a dispatch, a cycle and a step can do, once: every claim about all steps starts from these inversion lemmas. -/

namespace Sys2Proof.Machine

/-! The four instructions with a data access, each with both its ends. -/

theorem exec_lda (n : Byte) (s : State) : exec (.lda n) s =
    if n.toNat < 128 then .next (s.setRegA (Memory.readWord s.ram n.toNat)).advance
    else .next (s.raise (.ofAddressFault .ramRead (zext16 n) s.pc (some 0x01))) := by
  split
  · exact State.finishAccess_memRead_of_lt _ ‹_›
  · exact State.finishAccess_memRead_of_le _ (by omega)

theorem exec_add (n : Byte) (s : State) : exec (.add n) s =
    if n.toNat < 128 then .next (s.setRegB (Memory.readWord s.ram n.toNat)).aluAddRegs.advance
    else .next (s.raise (.ofAddressFault .ramRead (zext16 n) s.pc (some 0x03))) := by
  split
  · exact State.finishAccess_memRead_of_lt _ ‹_›
  · exact State.finishAccess_memRead_of_le _ (by omega)

theorem exec_ldr (n : Byte) (s : State) : exec (.ldr n) s =
    if n.toNat < 128 then .next (s.setRegA (Memory.readWord s.rom n.toNat)).advance
    else .next (s.raise (.ofAddressFault .romRead (zext16 n) s.pc (some 0x20))) := by
  split
  · exact State.finishAccess_romRead_of_lt _ ‹_›
  · exact State.finishAccess_romRead_of_le _ (by omega)

theorem exec_sta (n : Byte) (s : State) : exec (.sta n) s =
    if n.toNat < 128 then
      .next ({ s with ram := Memory.writeWord s.ram n.toNat s.regA } : State).advance
    else .next (s.raise (.ofAddressFault .ramWrite (zext16 n) s.pc (some 0x02))) := by
  split
  · exact State.finishAccess_memWrite_of_lt ‹_›
  · exact State.finishAccess_memWrite_of_le (by omega)

/-- Every way `exec` can end: HLT halts; an access out of range raises its AddressFault from the state
before the cycle; anything else is the PC advance of a state that differs from `s` in regA, regB, the
flags, RAM and `out` at most. -/
theorem exec_cases {i : Instr} {s t : State} (h : exec i s = .next t) :
    (i = .hlt ∧ t = s.halt) ∨
    (dataAddressOk i = false ∧ ∃ kind addr,
      t = s.raise (.ofAddressFault kind addr s.pc (some (opcodeOf i))) ∧
      (FaultRecord.ofAddressFault kind addr s.pc (some (opcodeOf i))).wf = true) ∨
    (dataAddressOk i = true ∧ i ≠ .hlt ∧ ∃ u : State, t = u.advance ∧ u.pc = s.pc ∧ u.rom = s.rom ∧
      u.run = s.run ∧ u.fault = s.fault ∧
      (u.ram = s.ram ∨ ∃ n v, i = .sta n ∧ n.toNat < 128 ∧ u.ram = Memory.writeWord s.ram n.toNat v) ∧
      (u.flags.j = s.flags.j ∨ ∃ n, u.regB = zext16 n)) := by
  have ok : ∀ n : Byte, n.toNat < 128 ∨ 128 ≤ n.toNat := fun n => Nat.lt_or_ge _ _
  cases i with
  | nop => cases h; exact .inr (.inr ⟨rfl, by simp, s, by simp⟩)
  | sub n => cases h; exact .inr (.inr ⟨rfl, by simp, s, by simp⟩)
  | adr n => cases h; exact .inr (.inr ⟨rfl, by simp, s, by simp⟩)
  | out => cases h; exact .inr (.inr ⟨rfl, by simp, _, rfl, by simp⟩)
  | hlt => cases h; exact .inl ⟨rfl, rfl⟩
  | ldi n => cases h; exact .inr (.inr ⟨rfl, by simp, _, rfl, by simp⟩)
  | adi n => cases h; exact .inr (.inr ⟨rfl, by simp, _, rfl, by simp⟩)
  | jmp n =>
    cases h
    exact .inr (.inr ⟨rfl, by simp, _, rfl, rfl, rfl, rfl, rfl, .inl rfl, .inr ⟨n, rfl⟩⟩)
  | jc n =>
    cases h
    refine .inr (.inr ⟨rfl, by simp, _, rfl, ?_⟩)
    split
    · exact ⟨rfl, rfl, rfl, rfl, .inl rfl, .inr ⟨n, rfl⟩⟩
    · simp
  | jz n =>
    cases h
    refine .inr (.inr ⟨rfl, by simp, _, rfl, ?_⟩)
    split
    · exact ⟨rfl, rfl, rfl, rfl, .inl rfl, .inr ⟨n, rfl⟩⟩
    · simp
  | lda n =>
    rcases ok n with hn | hn
    · rw [exec, execLda, State.finishAccess_memRead_of_lt _ hn] at h
      cases h
      exact .inr (.inr ⟨decide_eq_true hn, by simp, _, rfl, by simp⟩)
    · rw [exec, execLda, State.finishAccess_memRead_of_le _ hn] at h
      cases h
      exact .inr (.inl ⟨decide_eq_false (Nat.not_lt.mpr hn), _, _, rfl, by
        simpa [FaultRecord.wf, FaultRecord.ofAddressFault, opcodeOf] using hn⟩)
  | add n =>
    rcases ok n with hn | hn
    · rw [exec, execAdd, State.finishAccess_memRead_of_lt _ hn] at h
      cases h
      exact .inr (.inr ⟨decide_eq_true hn, by simp, _, rfl, by simp⟩)
    · rw [exec, execAdd, State.finishAccess_memRead_of_le _ hn] at h
      cases h
      exact .inr (.inl ⟨decide_eq_false (Nat.not_lt.mpr hn), _, _, rfl, by
        simpa [FaultRecord.wf, FaultRecord.ofAddressFault, opcodeOf] using hn⟩)
  | ldr n =>
    rcases ok n with hn | hn
    · rw [exec, execLdr, State.finishAccess_romRead_of_lt _ hn] at h
      cases h
      exact .inr (.inr ⟨decide_eq_true hn, by simp, _, rfl, by simp⟩)
    · rw [exec, execLdr, State.finishAccess_romRead_of_le _ hn] at h
      cases h
      exact .inr (.inl ⟨decide_eq_false (Nat.not_lt.mpr hn), _, _, rfl, by
        simpa [FaultRecord.wf, FaultRecord.ofAddressFault, opcodeOf] using hn⟩)
  | sta n =>
    rcases ok n with hn | hn
    · rw [exec, execSta, State.finishAccess_memWrite_of_lt hn] at h
      cases h
      exact .inr (.inr ⟨decide_eq_true hn, by simp, _, rfl, rfl, rfl, rfl, rfl,
        .inr ⟨n, _, rfl, hn, rfl⟩, .inl rfl⟩)
    · rw [exec, execSta, State.finishAccess_memWrite_of_le hn] at h
      cases h
      exact .inr (.inl ⟨decide_eq_false (Nat.not_lt.mpr hn), _, _, rfl, by
        simpa [FaultRecord.wf, FaultRecord.ofAddressFault, opcodeOf] using hn⟩)

/-- The fetch inside ROM, and outside it. -/
theorem cycle_of_lt {s : State} (h : s.pc.toNat < 128) :
    cycle s = executeWord (Memory.readWord s.rom s.pc.toNat) s := by
  rw [cycle, State.fetch, State.romRead_of_lt h]

theorem cycle_of_le {s : State} (h : 128 ≤ s.pc.toNat) :
    cycle s = .next (s.raise (.ofAddressFault .fetch s.pc s.pc none)) := by
  rw [cycle, State.fetch, State.romRead_of_le h]

theorem step_running {s : State} (h : s.run = .running) : step s = cycle s := by
  rw [step, h]

/-- Every way a step can end. -/
theorem step_cases {s t : State} (h : step s = .next t) :
    (s.run ≠ .running ∧ t = s) ∨
    (s.run = .running ∧ 128 ≤ s.pc.toNat ∧ t = s.raise (.ofAddressFault .fetch s.pc s.pc none)) ∨
    (s.run = .running ∧ s.pc.toNat < 128 ∧ ∃ op,
      decode (Memory.readWord s.rom s.pc.toNat) = .error (.undefinedOpcode op) ∧
      opcodeRow? op = none ∧ t = s.raise (.ofIllegalOpcode s.pc op)) ∨
    (s.run = .running ∧ s.pc.toNat < 128 ∧ ∃ i,
      decode (Memory.readWord s.rom s.pc.toNat) = .ok i ∧ exec i s = .next t) := by
  cases hrun : s.run with
  | halted => rw [step, hrun] at h; cases h; exact .inl ⟨by simp, rfl⟩
  | faulted => rw [step, hrun] at h; cases h; exact .inl ⟨by simp, rfl⟩
  | running =>
    rw [step_running hrun] at h
    rcases Nat.lt_or_ge s.pc.toNat 128 with hpc | hpc
    · rw [cycle_of_lt hpc, executeWord] at h
      cases hd : decode (Memory.readWord s.rom s.pc.toNat) with
      | ok i => rw [hd] at h; exact .inr (.inr (.inr ⟨rfl, hpc, i, rfl, h⟩))
      | error e =>
        obtain ⟨rfl, hrow⟩ := decode_error hd
        rw [hd] at h
        cases h
        exact .inr (.inr (.inl ⟨rfl, hpc, _, rfl, hrow, rfl⟩))
    · rw [cycle_of_le hpc] at h
      cases h
      exact .inr (.inl ⟨rfl, hpc, rfl⟩)

end Sys2Proof.Machine
end

