-- ==== Sys2Proof/Tests/Slice0.lean ====
section
/-! SUPPORT. Small tests with expected results from spec/95_test_vectors.md, and a witness for the hypotheses of every statement of Certificates/Slice0/Obligations.lean. -/

namespace Sys2Proof.Tests

open Sys2Proof Sys2Proof.Machine

/-! ### Helpers -/

/-- The machine after reset with one word where the next step fetches. -/
def ready (w : Nat) : State := State.reset.withFetchWord 16 w

/-- The state a step answers. -/
def after (s : State) : State :=
  match step s with
  | .next t => t
  | .fault _ => s
  | .refused _ => s

/-- An AddressFault record by its number fields. -/
def addressFault (kind : AccessKind) (addr pc : Word) (op : Option Byte) : FaultRecord :=
  ⟨.addressFault, some kind, some addr, pc, op⟩

/-! ### Well-formedness: each check refuses an ill-formed term.  `Instr.wellFormed` has nothing to refuse. -/

theorem test_image_of_127_words_refused : romImageWellFormed (List.replicate 127 0) = false := by
  simp [romImageWellFormed]
theorem test_image_of_129_words_refused : romImageWellFormed (List.replicate 129 0) = false := by
  simp [romImageWellFormed]
theorem test_image_of_128_words_accepted : romImageWellFormed (List.replicate 128 0) = true := by
  simp [romImageWellFormed]
theorem test_word_with_undefined_opcode_not_assembled : isAssembledWord 0x0900 = false := by decide
theorem test_out_with_operand_byte_not_assembled : isAssembledWord 0x05FF = false := by decide
theorem test_memory_out_of_order_not_wf : Memory.wf 128 [(3, 1), (2, 1)] = false := by decide
theorem test_memory_listing_zero_not_wf : Memory.wf 128 [(3, 0)] = false := by decide
theorem test_memory_past_the_end_not_wf : Memory.wf 128 [(256, 1)] = false := by decide
theorem test_fetch_fault_with_opcode_not_wf :
    (addressFault .fetch 128 128 (some 0)).wf = false := by decide

/-! ### Decoding: one word of each instruction, written out from R70 and R75 -/

theorem test_decode_nop : decode 0b0000000011111111 = .ok .nop := by rfl
theorem test_decode_lda : decode 0b0000000100000101 = .ok (.lda 5) := by rfl
theorem test_decode_sta : decode 0b0000001001111111 = .ok (.sta 127) := by rfl
theorem test_decode_add : decode 0b0000001100000001 = .ok (.add 1) := by rfl
theorem test_decode_sub : decode 0b0000010011001000 = .ok (.sub 200) := by rfl
theorem test_decode_out : decode 0b0000010111111111 = .ok .out := by rfl
theorem test_decode_jmp : decode 0b0000011000000011 = .ok (.jmp 3) := by rfl
theorem test_decode_jc : decode 0b0000011101111111 = .ok (.jc 127) := by rfl
theorem test_decode_jz : decode 0b0000100000001001 = .ok (.jz 9) := by rfl
theorem test_decode_hlt : decode 0b0000101000000111 = .ok .hlt := by rfl
theorem test_decode_ldi : decode 0b0001000011111111 = .ok (.ldi 255) := by rfl
theorem test_decode_adi : decode 0b0001000100000101 = .ok (.adi 5) := by rfl
theorem test_decode_ldr : decode 0b0010000010000000 = .ok (.ldr 128) := by rfl
theorem test_decode_adr : decode 0b0010000111111111 = .ok (.adr 255) := by rfl
theorem test_decode_undefined : decode 0b0000100100000000 = .error (.undefinedOpcode 0x09) := by rfl
theorem test_encode_ldi : encode (.ldi 5) = 0x1005 := by decide
theorem test_encode_hlt : encode .hlt = 0x0A00 := by decide
theorem test_table_word_decodes : decodeTableWord 16 0x0603 = some (.jmp 3) := by decide
theorem test_opcode_rows_disjoint :
    opcodeMap.Pairwise (fun a b => a.opcode ≠ b.opcode ∧ a.mnemonic ≠ b.mnemonic) := by decide

/-! ### One step of each instruction (95_test_vectors.md part 2) -/

/-- V-SY-1: at PC 7, `0x0000` gives PC 8. -/
theorem test_nop : (after { State.reset with pc := 7 }).pc = 8 := by decide

/-- V-LS-1. -/
theorem test_lda : (fun t : State => (t.regA, t.pc)) (after { ready 0x0105 with ram := Memory.writeWord [] 5 0x1234 }) = (0x1234, 1) := by
  decide

/-- V-LS-3. -/
theorem test_lda_fault : (fun t : State => (t.fault, t.run, t.regA, t.pc)) (after { ready 0x0180 with regA := 4 }) =
    (some (addressFault .ramRead 128 0 (some 0x01)), .faulted, 4, 0) := by decide

/-- V-LS-11. -/
theorem test_sta : Memory.readWord (after { ready 0x027F with regA := 5 }).ram 127 = 5 := by decide

/-- V-LS-12. -/
theorem test_sta_fault : (fun t : State => (t.fault, t.ram)) (after { ready 0x0280 with regA := 5 }) =
    (some (addressFault .ramWrite 128 0 (some 0x02)), []) := by decide

/-- V-AR-1. -/
theorem test_add : (fun t : State => (t.regA, t.regB, t.flags, t.pc))
    (after { ready 0x0301 with regA := 28657, ram := Memory.writeWord [] 1 46368 }) =
    (9489, 46368, ⟨true, false, false⟩, 1) := by decide

/-- V-AR-4. -/
theorem test_add_fault : (fun t : State => (t.fault, t.regA, t.regB, t.flags))
    (after { ready 0x03C8 with regA := 1, regB := 7, flags := ⟨true, true, false⟩ }) =
    (some (addressFault .ramRead 200 0 (some 0x03)), 1, 7, ⟨true, true, false⟩) := by decide

/-- V-AR-10. -/
theorem test_sub : after { ready 0x0405 with regA := 9, regB := 3, flags := ⟨true, false, false⟩ } =
    { ready 0x0405 with regA := 9, regB := 3, flags := ⟨true, false, false⟩, pc := 1 } := by decide

/-- V-AR-11. -/
theorem test_sub_no_fault : after (ready 0x04C8) = { ready 0x04C8 with pc := 1 } := by decide

/-- V-SY-4. -/
theorem test_out : (after { ready 0x0500 with out := [3] }).out = [3, 0] := by decide

/-- V-CT-1. -/
theorem test_jmp : (fun t : State => (t.pc, t.regB, t.flags.j))
    (after (({ State.reset with pc := 12 } : State).withFetchWord 16 0x0603)) = (3, 3, false) := by decide

/-- V-CT-6: the step after a jump to 200 faults at the fetch. -/
theorem test_jmp_out_of_rom : (fun t : State => (t.fault, t.pc)) (after (after (ready 0x06C8))) =
    (some (addressFault .fetch 200 200 none), 200) := by decide

/-- V-CT-2. -/
theorem test_jc_taken : (fun t : State => (t.pc, t.regB, t.flags.c))
    (after (({ State.reset with pc := 11, regB := 46368, flags := ⟨true, false, false⟩ } : State).withFetchWord 16 0x0700)) =
    (0, 0, true) := by decide

/-- V-CT-3. -/
theorem test_jc_untaken : (fun t : State => (t.pc, t.regB))
    (after (({ State.reset with pc := 11, regB := 46368 } : State).withFetchWord 16 0x0700)) = (12, 46368) := by decide

/-- V-CT-4. -/
theorem test_jz_taken : (fun t : State => (t.pc, t.regB, t.flags.z))
    (after (({ State.reset with pc := 4, flags := ⟨false, true, false⟩ } : State).withFetchWord 16 0x0809)) =
    (9, 9, true) := by decide

/-- V-CT-5. -/
theorem test_jz_untaken :
    (after (({ State.reset with pc := 4 } : State).withFetchWord 16 0x0809)).pc = 5 := by decide

/-- V-SY-6. -/
theorem test_hlt : (fun t : State => (t.run, t.pc, t.fault))
    (after (({ State.reset with pc := 127 } : State).withFetchWord 16 0x0A00)) = (.halted, 127, none) := by decide

/-- V-LS-8. -/
theorem test_ldi : (after { ready 0x10FF with regA := 0xABCD }).regA = 0x00FF := by decide

/-- V-LS-9. -/
theorem test_ldi_keeps_flags : (after { ready 0x1000 with flags := ⟨true, false, false⟩ }).flags =
    ⟨true, false, false⟩ := by decide

/-- V-AR-8. -/
theorem test_adi_wraps : (fun t : State => (t.regA, t.regB, t.flags)) (after { ready 0x11FF with regA := 0xFF01 }) =
    (0, 255, ⟨true, true, false⟩) := by decide

/-- V-AR-7. -/
theorem test_adi_zero : (fun t : State => (t.regA, t.flags))
    (after { ready 0x1100 with regA := 7, flags := ⟨false, true, false⟩ }) = (7, ⟨false, false, false⟩) := by decide

/-- V-LS-5: LDR of its own word. -/
theorem test_ldr : (after (ready 0x2000)).regA = 0x2000 := by decide

/-- V-LS-7. -/
theorem test_ldr_fault : (after (ready 0x20C8)).fault = some (addressFault .romRead 200 0 (some 0x20)) := by decide

/-- V-AR-12. -/
theorem test_adr : after (ready 0x21FF) = { ready 0x21FF with pc := 1 } := by decide

/-! ### ALU, engine and faults -/

/-- V-ALU-2, V-ALU-4, V-ALU-6. -/
theorem test_alu_carry : (aluCarry 0 0xFFFF, aluCarry 1 0xFFFF, aluCarry 0xFFFF 0xFFFF) =
    (false, true, true) := by decide

/-- V-FT-1. -/
theorem test_fetch_fault : (after { State.reset with pc := 128 }).fault =
    some (addressFault .fetch 128 128 none) := by decide

/-- V-FT-2. -/
theorem test_illegal_opcode :
    (after (({ State.reset with pc := 1 } : State).withFetchWord 16 0x0900)).fault =
    some ⟨.illegalOpcode, none, none, 1, some 0x09⟩ := by decide

/-- V-FT-3. -/
theorem test_step_after_faulted : after (after (ready 0x0180)) = after (ready 0x0180) := by decide

/-- The cause codes of R204. -/
theorem test_cause_codes : (FaultCause.addressFault.code, FaultCause.illegalOpcode.code) = (1, 2) := by decide

/-- withFetchWord makes a stopped machine with its PC out of ROM ready to fetch. -/
theorem test_with_fetch_word_from_faulted : (after ((after { State.reset with pc := 200 }).withFetchWord 16 0x1005)).regA = 5 := by
  decide

/-! ### Assembler and host boundary -/

/-- V-AS-1, W3: the tokens, with newlines as with spaces. -/
theorem test_tokenize : (tokenize "LDI 5\nOUT\nHLT".toList, tokenize " LDI 5  OUT HLT ".toList) =
    (["LDI".toList, "5".toList, "OUT".toList, "HLT".toList],
     ["LDI".toList, "5".toList, "OUT".toList, "HLT".toList]) := by decide

/-- W3: the words before the padding. -/
theorem test_assemble : (assembleFrom [] ["LDI".toList, "5".toList, "OUT".toList, "HLT".toList]).toOption =
    some [0x1005, 0x0500, 0x0A00] := by decide

/-- V-AS-2: the empty text. -/
theorem test_assemble_empty : assemble [] = .ok (List.replicate 128 0) := by rfl

/-- V-AS-3, V-AS-6, V-AS-13: tokens that are no mnemonic. -/
theorem test_unrecognized_tokens : ["5", "lda", "FOO"].all (fun t => (mnemonicRow? t.toList).isNone) = true := by
  decide

/-- V-AS-4, V-AS-7, V-AS-8: tokens that are no operand. -/
theorem test_malformed_operands : ["256", "0x10", "-1"].all (fun t => (parseOperand t.toList).isNone) = true := by
  decide

/-- V-AS-5: the missing operand is reported at its mnemonic. -/
theorem test_missing_operand : assembleFrom [] ["LDI".toList] = .error ⟨"LDI".toList⟩ := by rfl

/-- V-AS-9: leading zeros. -/
theorem test_operand_leading_zeros : parseOperand "007".toList = some 7 := by decide

/-- R182: 0 and 65535. -/
theorem test_render : [renderValue 0, renderValue 65535] = ["0".toList, "65535".toList] := by decide

/-! ### Witnesses: the hypotheses of each statement hold together somewhere, clause by clause -/

theorem witness_DecodeOfEncodeGivesInstruction : (Instr.lda 255).wellFormed = true := by decide

theorem witness_EncodeOfDecodeGivesWordBack :
    (decode 0x01FF = .ok (.lda 255) ∧ Instr.lda 255 ≠ .nop ∧ Instr.lda 255 ≠ .out ∧ Instr.lda 255 ≠ .hlt) ∧
    decode 0x00FF = .ok .nop ∧ decode 0x05FF = .ok .out ∧ decode 0x0AFF = .ok .hlt :=
  ⟨⟨rfl, by decide, by decide, by decide⟩, rfl, rfl, rfl⟩

theorem witness_DecoderRejectsExactlyUndefinedOpcodes :
    ([0x09, 0x0B, 0x0F, 0x12, 0x1F, 0x22, 0xFF].all fun op => (opcodeRow? op).isNone) = true ∧
    ([0x08, 0x0A, 0x10, 0x11, 0x20, 0x21].all fun op => (opcodeRow? op).isSome) = true := by decide

theorem witness_DecoderSplitsWordAndOpcodeSelects :
    opcodeField 0x01FF = opcodeField 0x0100 ∧ opcodeField 0x09FF = opcodeField 0x0900 := by decide

theorem reset_meets_invariant : State.reset.Inv := ⟨rfl, rfl, rfl, by decide, rfl⟩

theorem witness_EveryStepKeepsInvariant : ∃ t, State.reset.Inv ∧ step State.reset = .next t :=
  ⟨_, reset_meets_invariant, rfl⟩

theorem witness_PowerOnLoadsImageAndFetchesWordZero :
    ([0x1005] : List Word).length ≤ 128 ∧ (List.replicate 128 (0x1005 : Word)).length ≤ 128 := by
  simp

theorem witness_ReadsAreBoundsChecked :
    (127 : Word).toNat < 128 ∧ 128 ≤ (128 : Word).toNat := by decide

theorem witness_MemWriteReplacesOneWholeWord :
    Memory.wf 128 State.reset.ram = true ∧ (127 : Word).toNat < 128 ∧ (126 : Word) ≠ 127 ∧
      128 ≤ (128 : Word).toNat ∧ zext16 128 = 128 ∧ ∃ t, exec (.sta 128) State.reset = .next t :=
  ⟨rfl, by decide, by decide, by decide, by decide, _, rfl⟩

theorem witness_AdvanceLoadsTargetOrIncrements :
    (State.reset.requestJump 3).flags.j = true ∧ State.reset.flags.j = false := by decide

/-- The hypotheses of the statements about one instruction's result that ask only for J = 0: NOP, LDI, ADI,
SUB, ADR, OUT. -/
theorem witness_NopOnlyAdvances : State.reset.flags.j = false := rfl
theorem witness_LdiLoadsZeroExtendedOperand : State.reset.flags.j = false := rfl
theorem witness_AdiAddsImmediate : State.reset.flags.j = false := rfl
theorem witness_SubIsNoOperation : State.reset.flags.j = false := rfl
theorem witness_AdrIsNoOperation : State.reset.flags.j = false := rfl
theorem witness_OutEmitsAccumulator : State.reset.flags.j = false := rfl

/-- An operand token as the assembler-form clause of `EncodedAs` asks for. -/
theorem witness_EncodedAs : parseOperand "255".toList = some 255 := by decide

theorem witness_LdaLoadsRamWord :
    ((127 : Byte).toNat < 128 ∧ State.reset.flags.j = false) ∧ 128 ≤ (128 : Byte).toNat := by decide
theorem witness_LdrLoadsRomWord :
    ((127 : Byte).toNat < 128 ∧ State.reset.flags.j = false) ∧ 128 ≤ (128 : Byte).toNat := by decide
theorem witness_AddAddsRamWord :
    ((127 : Byte).toNat < 128 ∧ State.reset.flags.j = false) ∧ 128 ≤ (128 : Byte).toNat := by decide
theorem witness_StaStoresAccumulator :
    ((127 : Byte).toNat < 128 ∧ State.reset.flags.j = false ∧ Memory.wf 128 State.reset.ram = true ∧
      126 ≠ (127 : Byte).toNat) ∧ 128 ≤ (128 : Byte).toNat := by decide

theorem witness_JmpLoadsPcWithTarget :
    State.reset.flags.j = false ∧ 128 ≤ (128 : Byte).toNat ∧ State.reset.run = .running := by decide
theorem witness_JcJumpsExactlyOnCarry :
    (({ State.reset with flags := ⟨true, false, false⟩ } : State).flags.j = false ∧
      ({ State.reset with flags := ⟨true, false, false⟩ } : State).flags.c = true) ∧
    State.reset.flags.j = false ∧ State.reset.flags.c = false := by decide
theorem witness_JzJumpsExactlyOnZero :
    (({ State.reset with flags := ⟨false, true, false⟩ } : State).flags.j = false ∧
      ({ State.reset with flags := ⟨false, true, false⟩ } : State).flags.z = true) ∧
    State.reset.flags.j = false ∧ State.reset.flags.z = false := by decide

/-- The machine with `w` at ROM address `pc` and the PC there. -/
def readyAt (pc : Word) (w : Nat) : State := ({ State.reset with pc := pc } : State).withFetchWord 16 w

theorem witness_StepRunsDecodedInstruction :
    (readyAt 127 0x0500).run = .running ∧ (readyAt 127 0x0500).pc.toNat < 128 ∧
      decode (Memory.readWord (readyAt 127 0x0500).rom (readyAt 127 0x0500).pc.toNat) = .ok .out :=
  ⟨rfl, by decide, rfl⟩

theorem witness_TerminalStatesTakeNoCycle :
    State.reset.halt.run = .halted ∧ (after (ready 0x0180)).run = .faulted := by decide

theorem witness_FetchOutsideRomFaults :
    ({ State.reset with pc := 128 } : State).run = .running ∧
      128 ≤ ({ State.reset with pc := 128 } : State).pc.toNat := by decide

theorem witness_UndefinedOpcodeFaults :
    (readyAt 127 0x0900).run = .running ∧ (readyAt 127 0x0900).pc.toNat < 128 ∧
      opcodeRow? (opcodeField
        (Memory.readWord (readyAt 127 0x0900).rom (readyAt 127 0x0900).pc.toNat)) = none :=
  ⟨rfl, by decide, rfl⟩

/-- A safe cycle, and one unsafe by each of the three clauses: a data address of 128, the undefined opcode
0x09, and a PC of 128. -/
theorem witness_CycleFaultsExactlyWhenUnsafe :
    ((ready 0x017F).run = .running ∧ (∃ t, step (ready 0x017F) = .next t) ∧
      (ready 0x017F).cycleSafe = true) ∧
    ((ready 0x0180).run = .running ∧ (∃ t, step (ready 0x0180) = .next t) ∧
      (ready 0x0180).cycleSafe = false) ∧
    ((ready 0x0900).run = .running ∧ (∃ t, step (ready 0x0900) = .next t) ∧
      (ready 0x0900).cycleSafe = false) ∧
    (∃ s : State, s.pc = 128 ∧ s.run = .running ∧ (∃ t, step s = .next t) ∧ s.cycleSafe = false) :=
  ⟨⟨rfl, ⟨_, rfl⟩, by decide⟩, ⟨rfl, ⟨_, rfl⟩, by decide⟩, ⟨rfl, ⟨_, rfl⟩, by decide⟩,
    { State.reset with pc := 128 }, rfl, rfl, ⟨_, rfl⟩, by decide⟩

theorem witness_FaultingCycleWritesNothing :
    ∃ t, (ready 0x0180).run = .running ∧ step (ready 0x0180) = .next t ∧ t.run = .faulted :=
  ⟨_, rfl, rfl, rfl⟩

theorem witness_CarryWrittenOnlyByAddsAndReadOnlyByJc :
    (∃ t, (∀ n, Instr.ldi 0 ≠ .add n) ∧ (∀ n, Instr.ldi 0 ≠ .adi n) ∧ (∀ n, Instr.ldi 0 ≠ .jc n) ∧
      exec (.ldi 0) State.reset = .next t) ∧
    (∃ t, exec (.adi 255) State.reset = .next t) ∧
    (∃ t, (127 : Byte).toNat < 128 ∧ exec (.add 127) State.reset = .next t) :=
  ⟨⟨_, by simp, by simp, by simp, rfl⟩, ⟨_, rfl⟩, _, by decide, rfl⟩

theorem witness_ZeroWrittenOnlyByAddsAndReadOnlyByJz :
    (∃ t, (∀ n, Instr.ldi 0 ≠ .add n) ∧ (∀ n, Instr.ldi 0 ≠ .adi n) ∧ (∀ n, Instr.ldi 0 ≠ .jz n) ∧
      exec (.ldi 0) State.reset = .next t) ∧
    (∃ t, exec (.adi 255) State.reset = .next t) ∧
    (∃ t, (127 : Byte).toNat < 128 ∧ exec (.add 127) State.reset = .next t) :=
  ⟨⟨_, by simp, by simp, by simp, rfl⟩, ⟨_, rfl⟩, _, by decide, rfl⟩

theorem witness_RamTouchedOnlyByLdaAddSta :
    (∃ t, (127 : Byte).toNat < 128 ∧ exec (.lda 127) State.reset = .next t) ∧
    (∃ t, (127 : Byte).toNat < 128 ∧ exec (.add 127) State.reset = .next t) ∧
    (∃ t, (127 : Byte).toNat < 128 ∧ Memory.wf 128 State.reset.ram = true ∧
      exec (.sta 127) State.reset = .next t) ∧
    (∃ t, (∀ n, Instr.ldr 127 ≠ .lda n) ∧ (∀ n, Instr.ldr 127 ≠ .add n) ∧
      (∀ n, Instr.ldr 127 ≠ .sta n) ∧ exec (.ldr 127) State.reset = .next t) :=
  ⟨⟨_, by decide, rfl⟩, ⟨_, by decide, rfl⟩, ⟨_, by decide, rfl, rfl⟩,
    _, by simp, by simp, by simp, rfl⟩

theorem witness_RomNeverWrittenAndReadOnlyByLdr :
    (∃ t, step State.reset = .next t) ∧
    (∃ t, (∀ n, Instr.sta 127 ≠ .ldr n) ∧ exec (.sta 127) State.reset = .next t) :=
  ⟨⟨_, rfl⟩, _, by simp, rfl⟩

theorem witness_AccumulatorWritersAndReaders :
    (∃ t, (∀ n, Instr.jmp 3 ≠ .lda n) ∧ (∀ n, Instr.jmp 3 ≠ .ldr n) ∧ (∀ n, Instr.jmp 3 ≠ .ldi n) ∧
      (∀ n, Instr.jmp 3 ≠ .add n) ∧ (∀ n, Instr.jmp 3 ≠ .adi n) ∧
      exec (.jmp 3) State.reset = .next t) ∧
    (∃ t, (∀ n, Instr.jmp 3 ≠ .sta n) ∧ Instr.jmp 3 ≠ .out ∧ (∀ n, Instr.jmp 3 ≠ .add n) ∧
      (∀ n, Instr.jmp 3 ≠ .adi n) ∧ exec (.jmp 3) State.reset = .next t) ∧
    (∃ t, (∀ n, Instr.ldi 5 ≠ .sta n) ∧ Instr.ldi 5 ≠ .out ∧ (∀ n, Instr.ldi 5 ≠ .add n) ∧
      (∀ n, Instr.ldi 5 ≠ .adi n) ∧ exec (.ldi 5) State.reset = .next t) :=
  ⟨⟨_, by simp, by simp, by simp, by simp, by simp, rfl⟩,
    ⟨_, by simp, by simp, by simp, by simp, rfl⟩,
    _, by simp, by simp, by simp, by simp, rfl⟩

theorem witness_OperandRegisterNeverReadAcrossCycles :
    ∃ t, (ready 0x1105).flags.j = false ∧ step (ready 0x1105) = .next t := ⟨_, rfl, rfl⟩

theorem witness_OutputGrowsOnlyByOut :
    (∃ t, step (ready 0x0500) = .next t) ∧ ∃ t, step (ready 0x0000) = .next t := ⟨⟨_, rfl⟩, _, rfl⟩

theorem witness_HaltedEnteredExactlyByHlt :
    (∃ t, step (ready 0x0A00) = .next t ∧ (ready 0x0A00).run = .running) ∧
    ∃ t, step State.reset.halt = .next t ∧ State.reset.halt.run ≠ .running :=
  ⟨⟨_, rfl, rfl⟩, _, rfl, by decide⟩

theorem witness_NextPcIsTargetOrSuccessor :
    (∃ t, (readyAt 127 0x0000).flags.j = false ∧ (readyAt 127 0x0000).run = .running ∧
      step (readyAt 127 0x0000) = .next t ∧ t.run = .running) ∧
    ∃ t, (ready 0x0A00).flags.j = false ∧ (ready 0x0A00).run = .running ∧
      step (ready 0x0A00) = .next t ∧ t.run ≠ .running :=
  ⟨⟨_, rfl, rfl, rfl, rfl⟩, _, rfl, rfl, rfl, by decide⟩

/-- JMP 127, JC 127 with C and JZ 127 with Z, at PC 0, the target an unfilled slot (NOP). -/
theorem witness_TakenJumpHasNoDelaySlot :
    (ready 0x067F).flags.j = false ∧ (ready 0x067F).run = .running ∧ (ready 0x067F).pc.toNat < 128 ∧
    (127 : Byte).toNat < 128 ∧
    decode (Memory.readWord (ready 0x067F).rom (ready 0x067F).pc.toNat) = .ok (.jmp 127) ∧
    decode (Memory.readWord (ready 0x067F).rom (127 : Byte).toNat) = .ok .nop ∧
    (decode (Memory.readWord (ready 0x077F).rom 0) = .ok (.jc 127) ∧
      ({ ready 0x077F with flags := ⟨true, false, false⟩ } : State).flags.c = true) ∧
    (decode (Memory.readWord (ready 0x087F).rom 0) = .ok (.jz 127) ∧
      ({ ready 0x087F with flags := ⟨false, true, false⟩ } : State).flags.z = true) :=
  ⟨rfl, rfl, by decide, by decide, rfl, rfl, ⟨rfl, rfl⟩, rfl, rfl⟩

theorem witness_FrameOfAccumulatorLoads :
    (∃ t, State.reset.flags.j = false ∧ exec (.lda 127) State.reset = .next t) ∧
    (∃ t, State.reset.flags.j = false ∧ exec (.ldr 128) State.reset = .next t) ∧
    (∃ t, State.reset.flags.j = false ∧ exec (.ldi 255) State.reset = .next t) ∧
    dataAddressOk (.lda 127) = true :=
  ⟨⟨_, rfl, rfl⟩, ⟨_, rfl, rfl⟩, ⟨_, rfl, rfl⟩, by decide⟩

theorem witness_FrameOfSta :
    (∃ t, State.reset.flags.j = false ∧ exec (.sta 127) State.reset = .next t) ∧
    (∃ t, State.reset.flags.j = false ∧ exec (.sta 128) State.reset = .next t) ∧
    (ramAddress 127).toNat = 127 ∧ 253 ≠ Memory.highKey 127 ∧ 253 ≠ Memory.lowKey 127 ∧
    128 ≤ (128 : Byte).toNat ∧ (127 : Byte).toNat < 128 :=
  ⟨⟨_, rfl, rfl⟩, ⟨_, rfl, rfl⟩, by decide, by decide, by decide, by decide, by decide⟩

theorem witness_FrameOfAluAdds :
    (∃ t, State.reset.flags.j = false ∧ exec (.add 127) State.reset = .next t) ∧
    (∃ t, State.reset.flags.j = false ∧ exec (.adi 255) State.reset = .next t) ∧
    dataAddressOk (.add 127) = true ∧ dataAddressOk (.adi 255) = true :=
  ⟨⟨_, rfl, rfl⟩, ⟨_, rfl, rfl⟩, by decide, by decide⟩

theorem witness_FrameOfJumps :
    (∃ t, State.reset.flags.j = false ∧ exec (.jmp 255) State.reset = .next t) ∧
    (∃ t, State.reset.flags.j = false ∧ exec (.jc 255) State.reset = .next t ∧
      State.reset.flags.c = false) ∧
    (∃ t, State.reset.flags.j = false ∧ exec (.jz 255) State.reset = .next t ∧
      State.reset.flags.z = false) :=
  ⟨⟨_, rfl, rfl⟩, ⟨_, rfl, rfl, rfl⟩, _, rfl, rfl, rfl⟩

theorem witness_FrameOfNopSubAdrOutHlt :
    (∃ t, State.reset.flags.j = false ∧ exec .nop State.reset = .next t) ∧
    (∃ t, State.reset.flags.j = false ∧ exec (.sub 255) State.reset = .next t) ∧
    (∃ t, State.reset.flags.j = false ∧ exec (.adr 255) State.reset = .next t) ∧
    (∃ t, State.reset.flags.j = false ∧ exec .out State.reset = .next t ∧ Instr.out ≠ .hlt) ∧
    (∃ t, State.reset.flags.j = false ∧ exec .hlt State.reset = .next t ∧ Instr.hlt ≠ .out) :=
  ⟨⟨_, rfl, rfl⟩, ⟨_, rfl, rfl⟩, ⟨_, rfl, rfl⟩, ⟨_, rfl, rfl, by decide⟩, _, rfl, rfl, by decide⟩

theorem witness_SourceTextAssemblesToEncodings :
    (List.replicate 128 (Instr.ldi 255)).length ≤ 128 ∧
      128 < (List.replicate 129 (Instr.ldi 255)).length := by
  simp

theorem witness_AssembledImageHasOnlyAssembledWords :
    ∃ image, assembleTokens ["JMP".toList, "255".toList] = .ok image ∧ (0x06FF : Word) ∈ image :=
  ⟨_, assembleTokens_operand rfl rfl (by decide : parseOperand "255".toList = some 255), by decide⟩

/-- The hypotheses of each clause; the last one with a ROM that has no slot left (log entry 17). -/
theorem witness_BadTokenFailsAssembly :
    mnemonicRow? "FOO".toList = none ∧
    (∃ row, mnemonicRow? "LDI".toList = some row ∧ row.takesOperand = true) ∧
    parseOperand "256".toList = none ∧
    ∃ rom : List Word, rom.length = 128 ∧
      assembleFrom rom ["LDI".toList, "256".toList] = .error ⟨"256".toList⟩ :=
  ⟨rfl, ⟨_, rfl, rfl⟩, by decide, List.replicate 128 0, rfl, rfl⟩

theorem witness_OperandTokenReadAsDecimal :
    parseOperand "255".toList = some 255 ∧ parseOperand "256".toList = none ∧
      parseOperand [] = none := by decide

theorem witness_BootStopsOnAssemblyErrorOrPowersOn :
    assemble ['F', 'O', 'O', ' ', '1'] = .error ⟨['F', 'O', 'O']⟩ ∧
      assemble ['H', 'L', 'T'] = .ok (0x0A00 :: List.replicate 127 0) := ⟨rfl, rfl⟩

theorem witness_EndOfRunReportsStatusAndResult :
    State.reset.halt.exitStatus = some .zero ∧
      (after (ready 0x0180)).exitStatus = some .nonZero ∧ State.reset.runResult = none ∧
      (State.reset.halt.runResult).isSome = true := by decide

theorem witness_ConsoleRendersDecimalWithoutLeadingZeros : (0 : Word) = 0 ∧ (1 : Word) ≠ 0 := by decide

end Sys2Proof.Tests
end

/-! ## Execution in one normal form

Every instruction either makes a data access that names no cell, and raises its AddressFault from the state
before the cycle, or has its effect and ends the cycle.  `exec_eq_execNext` ties this form to `exec`; the
frames and the noninterference statements are then facts about the effect alone. -/

namespace Sys2Proof.Machine

/-- A conditional jump request: what JC and JZ do before the PC advance (43_control.md R161, R162). -/
def State.jumpIf (s : State) (taken : Bool) (target : Word) : State :=
  if taken then s.requestJump target else s

/-- What an instruction does before the end of its cycle, its data access given as in range. -/
def execEffect : Instr → State → State
  | .nop, s => s
  | .lda n, s => s.setRegA (Memory.readWord s.ram n.toNat)
  | .sta n, s => { s with ram := Memory.writeWord s.ram n.toNat s.regA }
  | .add n, s => (s.setRegB (Memory.readWord s.ram n.toNat)).aluAddRegs
  | .sub _, s => s
  | .out, s => s.emit s.regA
  | .jmp n, s => s.requestJump (jumpTarget n)
  | .jc n, s => s.jumpIf s.flags.c (jumpTarget n)
  | .jz n, s => s.jumpIf s.flags.z (jumpTarget n)
  | .hlt, s => s.halt
  | .ldi n, s => s.setRegA (immediate n)
  | .adi n, s => (s.setRegB (immediate n)).aluAddRegs
  | .ldr n, s => s.setRegA (Memory.readWord s.rom n.toNat)
  | .adr _, s => s

/-- The end of a cycle: the PC advance, which HLT alone does not run (40_engine.md R105). -/
def State.endCycle (i : Instr) (u : State) : State :=
  if i = .hlt then u else u.advance

/-- The kind of an instruction's data access, where it makes one (60_exceptions.md R202). -/
def dataAccessKind : Instr → AccessKind
  | .ldr _ => .romRead
  | .sta _ => .ramWrite
  | _ => .ramRead

/-- The record of an instruction's out-of-range data access in the cycle at `pc`. -/
def dataFault (i : Instr) (pc : Word) : FaultRecord :=
  .ofAddressFault (dataAccessKind i) (zext16 (operandOf i)) pc (some (opcodeOf i))

/-- The state `exec` answers. -/
def execNext (i : Instr) (s : State) : State :=
  if dataAddressOk i then (execEffect i s).endCycle i else s.raise (dataFault i s.pc)

section
variable {i : Instr} {s t : State} {α : Type}

theorem execNext_of_ok (h : dataAddressOk i = true) :
    execNext i s = (execEffect i s).endCycle i := if_pos h

theorem execNext_of_fault (h : dataAddressOk i = false) :
    execNext i s = s.raise (dataFault i s.pc) := if_neg (by simp [h])

/-- The form in which `exec_lda`, `exec_sta`, `exec_add` and `exec_ldr` give the two ends of an access. -/
theorem next_execNext_of_access {n : Byte} (h : dataAddressOk i = decide (n.toNat < 128)) :
    (Host.Outcome.next (execNext i s) : Host.Outcome State Fault Refusal) =
      if n.toNat < 128 then .next ((execEffect i s).endCycle i)
      else .next (s.raise (dataFault i s.pc)) := by
  by_cases hn : n.toNat < 128
  · rw [execNext_of_ok (h.trans (decide_eq_true hn)), if_pos hn]
  · rw [execNext_of_fault (h.trans (decide_eq_false hn)), if_neg hn]

theorem exec_eq_execNext (i : Instr) (s : State) : exec i s = .next (execNext i s) := by
  cases i with
  | lda n => exact (exec_lda n s).trans (next_execNext_of_access (i := .lda n) rfl).symm
  | sta n => exact (exec_sta n s).trans (next_execNext_of_access (i := .sta n) rfl).symm
  | add n => exact (exec_add n s).trans (next_execNext_of_access (i := .add n) rfl).symm
  | ldr n => exact (exec_ldr n s).trans (next_execNext_of_access (i := .ldr n) rfl).symm
  | _ => rfl

theorem exec_next_iff : exec i s = .next t ↔ execNext i s = t := by
  rw [exec_eq_execNext, Host.Outcome.next.injEq]

/-- What the effect leaves, and both ends of a cycle leave, the instruction leaves. -/
theorem execNext_keeps (f : State → α) (heff : f (execEffect i s) = f s)
    (hadv : ∀ u : State, f u.advance = f u) (hraise : ∀ r, f (s.raise r) = f s) :
    f (execNext i s) = f s := by
  unfold execNext State.endCycle
  split
  · split
    · exact heff
    · rw [hadv, heff]
  · exact hraise _

end

/-! ### Conditional jumps -/

section
variable (s : State) (taken : Bool) (target : Word)

@[simp] theorem State.jumpIf_regA : (s.jumpIf taken target).regA = s.regA := by cases taken <;> rfl
@[simp] theorem State.jumpIf_regB :
    (s.jumpIf taken target).regB = if taken then target else s.regB := by cases taken <;> rfl
@[simp] theorem State.jumpIf_c : (s.jumpIf taken target).flags.c = s.flags.c := by cases taken <;> rfl
@[simp] theorem State.jumpIf_z : (s.jumpIf taken target).flags.z = s.flags.z := by cases taken <;> rfl
@[simp] theorem State.jumpIf_rom : (s.jumpIf taken target).rom = s.rom := by cases taken <;> rfl
@[simp] theorem State.jumpIf_ram : (s.jumpIf taken target).ram = s.ram := by cases taken <;> rfl
@[simp] theorem State.jumpIf_out : (s.jumpIf taken target).out = s.out := by cases taken <;> rfl
@[simp] theorem State.jumpIf_run : (s.jumpIf taken target).run = s.run := by cases taken <;> rfl
@[simp] theorem State.jumpIf_fault : (s.jumpIf taken target).fault = s.fault := by cases taken <;> rfl

end

/-! ### What an instruction writes, element by element (10_state.md R38) -/

/-- The instructions that write regA. -/
def writesRegA : Instr → Bool
  | .lda _ | .ldr _ | .ldi _ | .add _ | .adi _ => true
  | _ => false

/-- The instructions that write C and Z. -/
def writesCZ : Instr → Bool
  | .add _ | .adi _ => true
  | _ => false

/-- The instructions that write regB; JC and JZ only when taken. -/
def writesRegB : Instr → Flags → Bool
  | .add _, _ | .adi _, _ | .jmp _, _ => true
  | .jc _, f => f.c
  | .jz _, f => f.z
  | _, _ => false

section
variable {i : Instr} {s : State}

theorem writesCZ_eq_false (hadd : ∀ n, i ≠ .add n) (hadi : ∀ n, i ≠ .adi n) : writesCZ i = false := by
  cases i with
  | add n => exact absurd rfl (hadd n)
  | adi n => exact absurd rfl (hadi n)
  | _ => rfl

theorem writesRegA_eq_false (hlda : ∀ n, i ≠ .lda n) (hldr : ∀ n, i ≠ .ldr n) (hldi : ∀ n, i ≠ .ldi n)
    (hadd : ∀ n, i ≠ .add n) (hadi : ∀ n, i ≠ .adi n) : writesRegA i = false := by
  cases i with
  | lda n => exact absurd rfl (hlda n)
  | ldr n => exact absurd rfl (hldr n)
  | ldi n => exact absurd rfl (hldi n)
  | add n => exact absurd rfl (hadd n)
  | adi n => exact absurd rfl (hadi n)
  | _ => rfl

theorem execNext_regA (h : writesRegA i = false) : (execNext i s).regA = s.regA := by
  refine execNext_keeps State.regA ?_ State.advance_regA fun _ => rfl
  cases i with
  | lda | ldr | ldi | add | adi => cases h
  | jc | jz => exact State.jumpIf_regA ..
  | _ => rfl

theorem execNext_c (h : writesCZ i = false) : (execNext i s).flags.c = s.flags.c := by
  refine execNext_keeps (·.flags.c) ?_ State.advance_c fun _ => rfl
  cases i with
  | add | adi => cases h
  | jc | jz => exact State.jumpIf_c ..
  | _ => rfl

theorem execNext_z (h : writesCZ i = false) : (execNext i s).flags.z = s.flags.z := by
  refine execNext_keeps (·.flags.z) ?_ State.advance_z fun _ => rfl
  cases i with
  | add | adi => cases h
  | jc | jz => exact State.jumpIf_z ..
  | _ => rfl

theorem execNext_regB (h : writesRegB i s.flags = false) : (execNext i s).regB = s.regB := by
  refine execNext_keeps State.regB ?_ State.advance_regB fun _ => rfl
  cases i with
  | add | adi | jmp => cases h
  | jc | jz => exact (State.jumpIf_regB ..).trans (if_neg (ne_true_of_eq_false h))
  | _ => rfl

theorem execNext_rom : (execNext i s).rom = s.rom := by
  refine execNext_keeps State.rom ?_ State.advance_rom fun _ => rfl
  cases i with
  | jc | jz => exact State.jumpIf_rom ..
  | _ => rfl

theorem execNext_ram (h : ∀ n, i ≠ .sta n) : (execNext i s).ram = s.ram := by
  refine execNext_keeps State.ram ?_ State.advance_ram fun _ => rfl
  cases i with
  | sta n => exact absurd rfl (h n)
  | jc | jz => exact State.jumpIf_ram ..
  | _ => rfl

theorem execNext_out (h : i ≠ .out) : (execNext i s).out = s.out := by
  refine execNext_keeps State.out ?_ State.advance_out fun _ => rfl
  cases i with
  | out => exact absurd rfl h
  | jc | jz => exact State.jumpIf_out ..
  | _ => rfl

theorem execNext_out_of_out : (execNext .out s).out = s.out ++ [s.regA] := State.advance_out _

/-- J is clear at the end of a cycle that began with it clear (10_state.md R34). -/
theorem execNext_j (hj : s.flags.j = false) : (execNext i s).flags.j = false := by
  unfold execNext State.endCycle
  split
  · split
    · rename_i hi; rw [hi]; exact hj
    · exact State.advance_j _
  · exact hj

theorem execNext_flags (h : writesCZ i = false) (hj : s.flags.j = false) :
    (execNext i s).flags = s.flags := by
  have hc := execNext_c (s := s) h
  have hz := execNext_z (s := s) h
  have hj' : (execNext i s).flags.j = s.flags.j := (execNext_j hj).trans hj.symm
  generalize (execNext i s).flags = f at hc hz hj'
  cases f
  cases hc; cases hz; cases hj'
  rfl

theorem execEffect_run (h : i ≠ .hlt) : (execEffect i s).run = s.run := by
  cases i with
  | hlt => exact absurd rfl h
  | jc | jz => exact State.jumpIf_run ..
  | _ => rfl

theorem execEffect_fault : (execEffect i s).fault = s.fault := by
  cases i with
  | jc | jz => exact State.jumpIf_fault ..
  | _ => rfl

/-- HLT halts, a data access out of range faults, and nothing else writes `run` (10_state.md R36). -/
theorem execNext_run : (execNext i s).run =
    if i = .hlt then .halted else if dataAddressOk i then s.run else .faulted := by
  by_cases hi : i = .hlt
  · subst hi; rfl
  · rw [if_neg hi, execNext, State.endCycle, if_neg hi]
    split
    · rw [State.advance_run, execEffect_run hi]
    · rfl

theorem execNext_run_of_ok (h : dataAddressOk i = true) (hi : i ≠ .hlt) :
    (execNext i s).run = s.run := by
  rw [execNext_run, if_neg hi, if_pos h]

theorem execNext_fault_of_ok (h : dataAddressOk i = true) : (execNext i s).fault = s.fault := by
  rw [execNext_of_ok h, State.endCycle]
  split
  · exact execEffect_fault
  · rw [State.advance_fault, execEffect_fault]

/-- ADD of an address in range and ADI end with the ALU's flags (42_arithmetic.md R140). -/
theorem execNext_add_flags {n : Byte} (h : n.toNat < 128) :
    (execNext (.add n) s).flags.c = aluCarry s.regA (Memory.readWord s.ram n.toNat) ∧
      (execNext (.add n) s).flags.z = aluZero (aluSum s.regA (Memory.readWord s.ram n.toNat)) := by
  rw [execNext_of_ok (i := .add n) (decide_eq_true h)]
  exact ⟨State.advance_c _, State.advance_z _⟩

theorem execNext_adi_flags {n : Byte} :
    (execNext (.adi n) s).flags.c = aluCarry s.regA (immediate n) ∧
      (execNext (.adi n) s).flags.z = aluZero (aluSum s.regA (immediate n)) :=
  ⟨State.advance_c _, State.advance_z _⟩

theorem execNext_sta_ram_of_lt {n : Byte} (h : n.toNat < 128) :
    (execNext (.sta n) s).ram = Memory.writeWord s.ram n.toNat s.regA := by
  rw [execNext_of_ok (i := .sta n) (decide_eq_true h)]
  exact State.advance_ram _

theorem execNext_sta_ram_of_le {n : Byte} (h : 128 ≤ n.toNat) : (execNext (.sta n) s).ram = s.ram := by
  rw [execNext_of_fault (i := .sta n) (decide_eq_false (Nat.not_lt.mpr h))]
  rfl

end

@[simp] theorem immediate_toNat (n : Byte) : (immediate n).toNat = n.toNat := zext16_toNat n

@[simp] theorem ramAddress_toNat (n : Byte) : (ramAddress n).toNat = n.toNat := zext16_toNat n

theorem aluZero_aluSum_iff (a b : Word) :
    aluZero (aluSum a b) = true ↔ (a.toNat + b.toNat) % 65536 = 0 := by
  rw [aluZero_iff, aluSum_toNat]

theorem Memory.readByte_of_eq {m m' : List Host.Cell} (h : m = m') (k : Nat) :
    readByte m k = readByte m' k := h ▸ rfl

theorem Memory.readWord_nil (a : Nat) : readWord [] a = 0 := readWord_ofWords [] a

/-! ### Noninterference: a change made before an operation is overwritten by it or carried through it -/

/-- `g` answers the same after the change `p` of `s`, or it leaves the element `f` and the change is there
afterwards. -/
def AbsorbsOrCarries {α : Type} (f : State → α) (p g : State → State) (s : State) : Prop :=
  g (p s) = g s ∨ (f (g s) = f s ∧ g (p s) = p (g s))

section
variable {i : Instr} {s t : State} {α : Type} {f : State → α} {p : State → State}

/-- If the effect absorbs or carries a change, and both ends of a cycle carry it, the instruction absorbs or
carries it. -/
theorem absorbsOrCarries_execNext (heff : AbsorbsOrCarries f p (execEffect i) s)
    (hadv : ∀ u : State, f u = f s → f u.advance = f s ∧ (p u).advance = p u.advance)
    (hpc : (p s).pc = s.pc)
    (hraise : ∀ r, f (s.raise r) = f s ∧ (p s).raise r = p (s.raise r)) :
    AbsorbsOrCarries f p (execNext i) s := by
  by_cases hok : dataAddressOk i = true
  · unfold AbsorbsOrCarries
    rw [execNext_of_ok hok, execNext_of_ok hok]
    rcases heff with habs | ⟨hkeep, hcarry⟩
    · exact .inl (by rw [habs])
    · rw [hcarry]
      unfold State.endCycle
      split
      · exact .inr ⟨hkeep, rfl⟩
      · exact .inr (hadv _ hkeep)
  · unfold AbsorbsOrCarries
    rw [execNext_of_fault (by simpa using hok), execNext_of_fault (by simpa using hok), hpc]
    exact .inr (hraise _)

theorem exec_of_absorbsOrCarries (h : AbsorbsOrCarries f p (execNext i) s) (ht : exec i s = .next t) :
    exec i (p s) = .next t ∨ (f t = f s ∧ exec i (p s) = .next (p t)) := by
  rw [exec_next_iff] at ht
  subst ht
  rwa [exec_next_iff, exec_next_iff]

end

/-- C becomes `b`. -/
def State.setC (b : Bool) (s : State) : State := { s with flags := { s.flags with c := b } }

/-- Z becomes `b`. -/
def State.setZ (b : Bool) (s : State) : State := { s with flags := { s.flags with z := b } }

section
variable {i : Instr} {s t : State} {b : Bool} {v : Word}

theorem State.advance_setC : (s.setC b).advance = s.advance.setC b := by
  cases hj : s.flags.j <;> simp [State.advance, State.setC, hj]

theorem State.advance_setZ : (s.setZ b).advance = s.advance.setZ b := by
  cases hj : s.flags.j <;> simp [State.advance, State.setZ, hj]

theorem State.advance_setRegA : (s.setRegA v).advance = s.advance.setRegA v := by
  cases hj : s.flags.j <;> simp [State.advance, State.setRegA, hj]

/-- The PC advance reads regB only where a jump is pending. -/
theorem State.advance_setRegB (hj : s.flags.j = false) :
    (s.setRegB v).advance = s.advance.setRegB v := by
  rw [State.advance_of_noJump s hj, State.advance_of_noJump (s.setRegB v) hj]; rfl

theorem State.jumpIf_setC (taken : Bool) (target : Word) :
    (s.setC b).jumpIf taken target = (s.jumpIf taken target).setC b := by
  cases taken <;> rfl

theorem State.jumpIf_setZ (taken : Bool) (target : Word) :
    (s.setZ b).jumpIf taken target = (s.jumpIf taken target).setZ b := by
  cases taken <;> rfl

theorem State.jumpIf_setRegA (taken : Bool) (target : Word) :
    (s.setRegA v).jumpIf taken target = (s.jumpIf taken target).setRegA v := by
  cases taken <;> rfl

/-- Only JC reads C (10_state.md R28). -/
theorem exec_setC (hjc : ∀ n, i ≠ .jc n) (h : exec i s = .next t) :
    exec i (s.setC b) = .next t ∨ (t.flags.c = s.flags.c ∧ exec i (s.setC b) = .next (t.setC b)) := by
  have heff : AbsorbsOrCarries (·.flags.c) (State.setC b) (execEffect i) s := by
    cases i with
    | jc n => exact absurd rfl (hjc n)
    | add | adi => exact .inl rfl
    | jz => exact .inr ⟨State.jumpIf_c .., State.jumpIf_setC ..⟩
    | _ => exact .inr ⟨rfl, rfl⟩
  have hnext := absorbsOrCarries_execNext heff
    (fun u hu => ⟨(State.advance_c u).trans hu, State.advance_setC⟩) rfl fun _ => ⟨rfl, rfl⟩
  exact exec_of_absorbsOrCarries hnext h

/-- Only JZ reads Z (10_state.md R29). -/
theorem exec_setZ (hjz : ∀ n, i ≠ .jz n) (h : exec i s = .next t) :
    exec i (s.setZ b) = .next t ∨ (t.flags.z = s.flags.z ∧ exec i (s.setZ b) = .next (t.setZ b)) := by
  have heff : AbsorbsOrCarries (·.flags.z) (State.setZ b) (execEffect i) s := by
    cases i with
    | jz n => exact absurd rfl (hjz n)
    | add | adi => exact .inl rfl
    | jc => exact .inr ⟨State.jumpIf_z .., State.jumpIf_setZ ..⟩
    | _ => exact .inr ⟨rfl, rfl⟩
  have hnext := absorbsOrCarries_execNext heff
    (fun u hu => ⟨(State.advance_z u).trans hu, State.advance_setZ⟩) rfl fun _ => ⟨rfl, rfl⟩
  exact exec_of_absorbsOrCarries hnext h

/-- Only STA, OUT, ADD and ADI read regA (10_state.md R21); the loads overwrite it. -/
theorem exec_setRegA (hsta : ∀ n, i ≠ .sta n) (hout : i ≠ .out) (hadd : ∀ n, i ≠ .add n)
    (hadi : ∀ n, i ≠ .adi n) (h : exec i s = .next t) :
    exec i (s.setRegA v) = .next t ∨ (t.regA = s.regA ∧ exec i (s.setRegA v) = .next (t.setRegA v)) := by
  have heff : AbsorbsOrCarries State.regA (State.setRegA · v) (execEffect i) s := by
    cases i with
    | sta n => exact absurd rfl (hsta n)
    | out => exact absurd rfl hout
    | add n => exact absurd rfl (hadd n)
    | adi n => exact absurd rfl (hadi n)
    | lda | ldr | ldi => exact .inl rfl
    | jc | jz => exact .inr ⟨State.jumpIf_regA .., State.jumpIf_setRegA ..⟩
    | _ => exact .inr ⟨rfl, rfl⟩
  have hnext := absorbsOrCarries_execNext heff
    (fun u hu => ⟨(State.advance_regA u).trans hu, State.advance_setRegA⟩) rfl fun _ => ⟨rfl, rfl⟩
  exact exec_of_absorbsOrCarries hnext h

/-- A cycle that begins with J clear reads no regB but the one it writes itself: ADD, ADI and a taken jump
overwrite regB before the ALU or the PC advance reads it, and no other cycle has a jump pending. -/
theorem exec_setRegB (hj : s.flags.j = false) (h : exec i s = .next t) :
    exec i (s.setRegB v) = .next t ∨ (t.regB = s.regB ∧ exec i (s.setRegB v) = .next (t.setRegB v)) := by
  have hjump (taken : Bool) (target : Word) : AbsorbsOrCarries (fun u => (u.regB, u.flags.j))
      (State.setRegB · v) (State.jumpIf · taken target) s := by
    cases taken with
    | true => exact .inl rfl
    | false => exact .inr ⟨rfl, rfl⟩
  have heff : AbsorbsOrCarries (fun u => (u.regB, u.flags.j)) (State.setRegB · v) (execEffect i) s := by
    cases i with
    | add | adi | jmp => exact .inl rfl
    | jc | jz => exact hjump _ _
    | _ => exact .inr ⟨rfl, rfl⟩
  have hnext := absorbsOrCarries_execNext heff
    (fun u hu => by
      obtain ⟨hB, hJ⟩ := Prod.mk.inj hu
      exact ⟨Prod.ext ((State.advance_regB u).trans hB) ((State.advance_j u).trans hj.symm),
        State.advance_setRegB (hJ.trans hj)⟩)
    rfl fun _ => ⟨rfl, rfl⟩
  exact (exec_of_absorbsOrCarries hnext h).imp_right
    fun ⟨hkeep, hcarry⟩ => ⟨congrArg Prod.fst hkeep, hcarry⟩

end

/-! ### A step, given how it goes -/

section
variable {s : State}

theorem step_of_not_running (h : s.run ≠ .running) : step s = .next s := by
  unfold step
  split
  · exact absurd ‹_› h
  · rfl
  · rfl

theorem step_of_fetchFault (hrun : s.run = .running) (hpc : 128 ≤ s.pc.toNat) :
    step s = .next (s.raise (.ofAddressFault .fetch s.pc s.pc none)) := by
  rw [step_running hrun, cycle_of_le hpc]

theorem step_of_undefinedOpcode {op : Byte} (hrun : s.run = .running) (hpc : s.pc.toNat < 128)
    (hd : decode (Memory.readWord s.rom s.pc.toNat) = .error (.undefinedOpcode op)) :
    step s = .next (s.raise (.ofIllegalOpcode s.pc op)) := by
  rw [step_running hrun, cycle_of_lt hpc, executeWord, hd]

theorem step_of_decode {i : Instr} (hrun : s.run = .running) (hpc : s.pc.toNat < 128)
    (hd : decode (Memory.readWord s.rom s.pc.toNat) = .ok i) : step s = exec i s := by
  rw [step_running hrun, cycle_of_lt hpc, executeWord, hd]

end

/-! ### The invariant through the ends of a cycle -/

section
variable {s t u : State}

theorem State.Inv.fault_eq_none (h : s.Inv) (hrun : s.run = .running) : s.fault = none := by
  simpa [State.faultAgrees, hrun] using h.faultOk

theorem State.Inv.halt (h : s.Inv) (hrun : s.run = .running) : s.halt.Inv :=
  { romWf := h.romWf, ramWf := h.ramWf, noJump := h.noJump, pcRange := h.pcRange
    faultOk := by simp [State.faultAgrees, h.fault_eq_none hrun] }

theorem State.Inv.raise {r : FaultRecord} (h : s.Inv) (hwf : r.wf = true) (hpc : r.pc = s.pc) :
    (s.raise r).Inv :=
  { romWf := h.romWf, ramWf := h.ramWf, noJump := h.noJump, pcRange := h.pcRange
    faultOk := by simp [State.faultAgrees, hwf, hpc] }

/-- The PC advance from a PC inside ROM, or to a target of 8 bits, stays in 0..255 (10_state.md R24). -/
theorem State.advance_pc_le (hpc : u.pc.toNat < 128) (htarget : u.flags.j = true → u.regB.toNat ≤ 255) :
    u.advance.pc.toNat ≤ 255 := by
  rw [State.advance_pc]
  split
  · exact htarget ‹_›
  · rw [BitVec.toNat_add]
    exact (Nat.mod_le _ _).trans (Nat.succ_le_of_lt (hpc.trans (by decide)))

/-- An instruction run from a state that meets the invariant leaves one that meets it. -/
theorem inv_of_exec {i : Instr} (h : s.Inv) (hrun : s.run = .running) (hpc : s.pc.toNat < 128)
    (ht : exec i s = .next t) : t.Inv := by
  rcases exec_cases ht with ⟨-, rfl⟩ | ⟨-, kind, addr, rfl, hwf⟩ |
    ⟨-, -, u, rfl, hupc, hurom, hurun, hufault, huram, hujump⟩
  · exact h.halt hrun
  · exact h.raise hwf rfl
  · have hram : Memory.wf Config.ramWords u.ram = true := by
      rcases huram with hr | ⟨n, v, -, hn, hr⟩
      · rw [hr]; exact h.ramWf
      · rw [hr]; exact Memory.wf_writeWord v h.ramWf hn
    have htarget : u.flags.j = true → u.regB.toNat ≤ 255 := by
      intro hj
      rcases hujump with hkeep | ⟨n, hB⟩
      · rw [hkeep, h.noJump] at hj; cases hj
      · rw [hB]; exact zext16_le n
    exact
      { romWf := by rw [State.advance_rom, hurom]; exact h.romWf
        ramWf := by rw [State.advance_ram]; exact hram
        noJump := State.advance_j u
        pcRange := State.advance_pc_le (by rw [hupc]; exact hpc) htarget
        faultOk := by simp [State.faultAgrees, hurun, hrun, hufault, h.fault_eq_none hrun] }

end

end Sys2Proof.Machine

/-! ## State, reset, whole-machine rules and frames: the statements -/

namespace Sys2Proof.StateProofs

open Sys2Proof Sys2Proof.Machine

/-- Settles O10: a fault ends the cycle with a record that R202 and R204 allow, and a decoded instruction
keeps the invariant. -/
theorem everyStepKeepsInvariant : Obligations.EveryStepKeepsInvariant := by
  intro s t hinv h
  rcases step_cases h with ⟨-, rfl⟩ | ⟨-, hpc, rfl⟩ | ⟨-, -, op, -, hrow, rfl⟩ |
    ⟨hrun, hpc, i, -, hexec⟩
  · exact hinv
  · exact hinv.raise (by simp [FaultRecord.wf, FaultRecord.ofAddressFault, hpc]) rfl
  · exact hinv.raise (by simp [FaultRecord.wf, FaultRecord.ofIllegalOpcode, hrow]) rfl
  · exact inv_of_exec hinv hrun hpc hexec

/-- Settles O43: no fault reads or writes regB, and a decoded instruction absorbs or carries the change. -/
theorem operandRegisterNeverReadAcrossCycles : Obligations.OperandRegisterNeverReadAcrossCycles := by
  intro s t v hj h
  change step (s.setRegB v) = _ ∨ (_ ∧ step (s.setRegB v) = .next (t.setRegB v))
  rcases step_cases h with ⟨hrun, rfl⟩ | ⟨hrun, hpc, rfl⟩ | ⟨hrun, hpc, op, hd, -, rfl⟩ |
    ⟨hrun, hpc, i, hd, hexec⟩
  · exact .inr ⟨rfl, step_of_not_running hrun⟩
  · exact .inr ⟨rfl, step_of_fetchFault (s := s.setRegB v) hrun hpc⟩
  · exact .inr ⟨rfl, step_of_undefinedOpcode (s := s.setRegB v) hrun hpc hd⟩
  · rw [step_of_decode (s := s.setRegB v) hrun hpc hd]
    exact exec_setRegB hj hexec

/-- Settles O38: the writers' clauses read C off the normal form, where ADD and ADI end with the ALU's
carry; the readers' clause is `exec_setC`. -/
theorem carryWrittenOnlyByAddsAndReadOnlyByJc : Obligations.CarryWrittenOnlyByAddsAndReadOnlyByJc := by
  refine ⟨fun i s t hadd hadi h => ?_, fun n s t h => ?_, fun n s t hn h => ?_,
    fun i s t b hjc h => exec_setC hjc h, rfl⟩ <;> rw [exec_next_iff] at h <;> subst h
  · exact execNext_c (writesCZ_eq_false hadd hadi)
  · rw [execNext_adi_flags.1, aluCarry_iff, immediate_toNat]
  · rw [(execNext_add_flags hn).1, aluCarry_iff]

/-- Settles O39: as for C, with the ALU's zero rule and `exec_setZ`. -/
theorem zeroWrittenOnlyByAddsAndReadOnlyByJz : Obligations.ZeroWrittenOnlyByAddsAndReadOnlyByJz := by
  refine ⟨fun i s t hadd hadi h => ?_, fun n s t h => ?_, fun n s t hn h => ?_,
    fun i s t b hjz h => exec_setZ hjz h, rfl⟩ <;> rw [exec_next_iff] at h <;> subst h
  · exact execNext_z (writesCZ_eq_false hadd hadi)
  · rw [execNext_adi_flags.2, aluZero_aluSum_iff, immediate_toNat]
  · rw [(execNext_add_flags hn).2, aluZero_aluSum_iff]

/-- Settles O42: the effect of every instruction outside the two lists leaves, or carries, regA. -/
theorem accumulatorWritersAndReaders : Obligations.AccumulatorWritersAndReaders := by
  refine ⟨fun i s t hlda hldr hldi hadd hadi h => ?_, fun i s t v hsta hout hadd hadi h =>
    exec_setRegA hsta hout hadd hadi h⟩
  rw [exec_next_iff] at h
  subst h
  exact execNext_regA (writesRegA_eq_false hlda hldr hldi hadd hadi)

/-- Settles O44: of the four ways a step can end, only a decoded OUT writes `out`. -/
theorem outputGrowsOnlyByOut : Obligations.OutputGrowsOnlyByOut := by
  intro s t h
  rcases step_cases h with ⟨hrun, rfl⟩ | ⟨-, hpc, rfl⟩ | ⟨-, -, op, hd, -, rfl⟩ |
    ⟨hrun, hpc, i, hd, hexec⟩
  · exact .inr ⟨rfl, fun ⟨hr, _⟩ => hrun hr⟩
  · exact .inr ⟨rfl, fun ⟨_, hlt, _⟩ => absurd hlt (Nat.not_lt.mpr hpc)⟩
  · exact .inr ⟨rfl, fun ⟨_, _, hout⟩ => by rw [hd] at hout; cases hout⟩
  · rw [exec_next_iff] at hexec
    subst hexec
    by_cases hi : i = .out
    · subst hi
      exact .inl ⟨execNext_out_of_out, hrun, hpc, hd⟩
    · refine .inr ⟨execNext_out hi, fun ⟨_, _, hout⟩ => hi ?_⟩
      exact Except.ok.inj (hd.symm.trans hout)

/-- Settles O45: a fault ends Faulted, and of the decoded instructions only HLT ends Halted. -/
theorem haltedEnteredExactlyByHlt : Obligations.HaltedEnteredExactlyByHlt := by
  intro s t h
  rcases step_cases h with ⟨hrun, rfl⟩ | ⟨hrun, hpc, rfl⟩ | ⟨hrun, -, op, hd, -, rfl⟩ |
    ⟨hrun, hpc, i, hd, hexec⟩
  · exact ⟨fun hr => absurd hr hrun, fun _ => rfl⟩
  · exact ⟨fun _ => ⟨nofun, fun ⟨hlt, _⟩ => absurd hlt (Nat.not_lt.mpr hpc)⟩, fun hr => absurd hrun hr⟩
  · exact ⟨fun _ => ⟨nofun, fun ⟨_, hhlt⟩ => by rw [hd] at hhlt; cases hhlt⟩, fun hr => absurd hrun hr⟩
  · rw [exec_next_iff] at hexec
    subst hexec
    refine ⟨fun _ => ?_, fun hr => absurd hrun hr⟩
    rw [execNext_run, hd, hrun]
    by_cases hi : i = .hlt
    · simp [hi, hpc]
    · by_cases hok : dataAddressOk i = true <;> simp [hi, hok]

/-- Settles O48: none of the three is a writer of the other elements; a fault writes only `run` and `fault`. -/
theorem frameOfAccumulatorLoads : Obligations.FrameOfAccumulatorLoads := by
  intro i n s t hi hj h
  rw [exec_next_iff] at h
  subst h
  have hB : writesRegB i s.flags = false := by rcases hi with rfl | rfl | rfl <;> rfl
  have hCZ : writesCZ i = false := by rcases hi with rfl | rfl | rfl <;> rfl
  have hout : i ≠ .out := by rcases hi with rfl | rfl | rfl <;> nofun
  have hsta : ∀ m, i ≠ .sta m := by rcases hi with rfl | rfl | rfl <;> nofun
  have hhlt : i ≠ .hlt := by rcases hi with rfl | rfl | rfl <;> nofun
  exact ⟨execNext_regB hB, execNext_flags hCZ hj, execNext_out hout,
    Memory.readByte_of_eq execNext_rom, Memory.readByte_of_eq (execNext_ram hsta),
    fun hok => ⟨execNext_run_of_ok hok hhlt, execNext_fault_of_ok hok⟩⟩

/-- Settles O49: in range the RAM is one word write, out of range it is the RAM before. -/
theorem frameOfSta : Obligations.FrameOfSta := by
  intro n s t hj h
  rw [exec_next_iff] at h
  subst h
  refine ⟨execNext_regA rfl, execNext_regB rfl, execNext_flags rfl hj, execNext_out nofun,
    Memory.readByte_of_eq execNext_rom, ?_, fun hn => Memory.readByte_of_eq (execNext_sta_ram_of_le hn),
    fun hn => ⟨execNext_run_of_ok (decide_eq_true hn) nofun, execNext_fault_of_ok (decide_eq_true hn)⟩⟩
  intro a ha k hhigh hlow
  rw [ramAddress_toNat] at ha
  subst ha
  rcases Nat.lt_or_ge n.toNat 128 with hn | hn
  · rw [execNext_sta_ram_of_lt hn]
    exact Memory.readByte_writeWord_ne _ _ hhigh hlow
  · rw [execNext_sta_ram_of_le hn]

/-- Settles O50: J is clear before and after, and neither instruction writes memory or `out`. -/
theorem frameOfAluAdds : Obligations.FrameOfAluAdds := by
  intro i n s t hi hj h
  rw [exec_next_iff] at h
  subst h
  have hout : i ≠ .out := by rcases hi with rfl | rfl <;> nofun
  have hsta : ∀ m, i ≠ .sta m := by rcases hi with rfl | rfl <;> nofun
  have hhlt : i ≠ .hlt := by rcases hi with rfl | rfl <;> nofun
  exact ⟨(execNext_j hj).trans hj.symm, execNext_out hout,
    Memory.readByte_of_eq execNext_rom, Memory.readByte_of_eq (execNext_ram hsta),
    fun hok => ⟨execNext_run_of_ok hok hhlt, execNext_fault_of_ok hok⟩⟩

/-- Settles O51: a jump cannot fault, and the J it sets is cleared by the advance of its own cycle. -/
theorem frameOfJumps : Obligations.FrameOfJumps := by
  intro i n s t hi hj h
  rw [exec_next_iff] at h
  subst h
  have hA : writesRegA i = false := by rcases hi with rfl | rfl | rfl <;> rfl
  have hCZ : writesCZ i = false := by rcases hi with rfl | rfl | rfl <;> rfl
  have hok : dataAddressOk i = true := by rcases hi with rfl | rfl | rfl <;> rfl
  have hout : i ≠ .out := by rcases hi with rfl | rfl | rfl <;> nofun
  have hsta : ∀ m, i ≠ .sta m := by rcases hi with rfl | rfl | rfl <;> nofun
  have hhlt : i ≠ .hlt := by rcases hi with rfl | rfl | rfl <;> nofun
  exact ⟨execNext_regA hA, execNext_flags hCZ hj, execNext_out hout, execNext_run_of_ok hok hhlt,
    execNext_fault_of_ok hok, fun hjc hc => execNext_regB (by rw [hjc]; exact hc),
    fun hjz hz => execNext_regB (by rw [hjz]; exact hz),
    Memory.readByte_of_eq execNext_rom, Memory.readByte_of_eq (execNext_ram hsta)⟩

/-- Settles O52: none of the five is a writer of a register, a flag or RAM, and none can fault. -/
theorem frameOfNopSubAdrOutHlt : Obligations.FrameOfNopSubAdrOutHlt := by
  intro i n s t hi hj h
  rw [exec_next_iff] at h
  subst h
  have hA : writesRegA i = false := by rcases hi with rfl | rfl | rfl | rfl | rfl <;> rfl
  have hB : writesRegB i s.flags = false := by rcases hi with rfl | rfl | rfl | rfl | rfl <;> rfl
  have hCZ : writesCZ i = false := by rcases hi with rfl | rfl | rfl | rfl | rfl <;> rfl
  have hok : dataAddressOk i = true := by rcases hi with rfl | rfl | rfl | rfl | rfl <;> rfl
  have hsta : ∀ m, i ≠ .sta m := by rcases hi with rfl | rfl | rfl | rfl | rfl <;> nofun
  exact ⟨execNext_regA hA, execNext_regB hB, execNext_flags hCZ hj, execNext_fault_of_ok hok,
    fun hout => execNext_out hout, fun hhlt => execNext_run_of_ok hok hhlt,
    Memory.readByte_of_eq execNext_rom, Memory.readByte_of_eq (execNext_ram hsta)⟩

/-- Settles O6: the memories at reset list no cell, and every word of such a memory is 0. -/
theorem resetLeavesSpecValues : Obligations.ResetLeavesSpecValues :=
  ⟨rfl, rfl, rfl, rfl, rfl, Memory.readWord_nil, Memory.readWord_nil, rfl, rfl, rfl, rfl, rfl⟩

/-- Settles O7: the word is three bits put below the 13 zero bits, one after the other. -/
theorem flagsWordHoldsThreeBits : Obligations.FlagsWordHoldsThreeBits := by
  intro f
  have hword : f.word = (((0 : BitVec 13).concat f.j).concat f.z).concat f.c := rfl
  have hbit (b : Bool) (k : Nat) : (if b then k else 0) = k * b.toNat := by cases b <;> simp
  simp only [hword, BitVec.toNat_concat, hbit]
  have hzero : (0 : BitVec 13).toNat = 0 := rfl
  omega

/-- Settles O8: clause by clause, a memory without cells being canonical. -/
theorem resetMeetsInvariant : Obligations.ResetMeetsInvariant :=
  { romWf := rfl, ramWf := rfl, noJump := rfl, pcRange := by decide, faultOk := rfl }

end Sys2Proof.StateProofs

/-! ## Memory: what a write leaves to the reads, and who touches ROM and RAM -/

namespace Sys2Proof.Machine

/-- RAM becomes `m`. -/
def State.setRam (m : List Host.Cell) (s : State) : State := { s with ram := m }

/-- ROM becomes `m`. -/
def State.setRom (m : List Host.Cell) (s : State) : State := { s with rom := m }

/-! ### A read after a write -/

section
variable {s : State} {addr addr' v : Word}

theorem State.memWrite_eq_setRam (h : addr.toNat < 128) :
    s.memWrite addr v = .done (s.setRam (Memory.writeWord s.ram addr.toNat v)) :=
  State.memWrite_of_lt h

theorem State.memRead_written_self (hwf : Memory.wf 128 s.ram = true) (h : addr.toNat < 128) :
    (s.setRam (Memory.writeWord s.ram addr.toNat v)).memRead addr = .done v := by
  rw [State.memRead_of_lt h]
  exact congrArg Access.done (Memory.readWord_writeWord_self v hwf h)

/-- Also where `addr'` names no word and both reads fault. -/
theorem State.memRead_written_ne (hne : addr' ≠ addr) :
    (s.setRam (Memory.writeWord s.ram addr.toNat v)).memRead addr' = s.memRead addr' := by
  rcases Nat.lt_or_ge addr'.toNat 128 with hlt | hge
  · rw [State.memRead_of_lt hlt, State.memRead_of_lt hlt]
    exact congrArg Access.done
      (Memory.readWord_writeWord_ne s.ram v fun heq => hne (BitVec.eq_of_toNat_eq heq))
  · rw [State.memRead_of_le hge, State.memRead_of_le hge]

end

/-! ### Where a RAM word read by an instruction goes -/

section
variable {n : Byte} {s : State}

theorem execNext_lda_regA_of_lt (h : n.toNat < 128) :
    (execNext (.lda n) s).regA = Memory.readWord s.ram n.toNat := by
  rw [execNext_of_ok (i := .lda n) (decide_eq_true h)]
  exact State.advance_regA _

theorem execNext_add_regB_of_lt (h : n.toNat < 128) :
    (execNext (.add n) s).regB = Memory.readWord s.ram n.toNat := by
  rw [execNext_of_ok (i := .add n) (decide_eq_true h)]
  exact State.advance_regB _

end

/-! ### A memory that an instruction does not access is carried through it -/

section
variable {i : Instr} {s t : State} {p : State → State} {m : List Host.Cell}

/-- If the effect and both ends of a cycle carry a change, the instruction carries it. -/
theorem execNext_carries (heff : execEffect i (p s) = p (execEffect i s))
    (hadv : ∀ u : State, (p u).advance = p u.advance) (hpc : (p s).pc = s.pc)
    (hraise : ∀ r, (p s).raise r = p (s.raise r)) : execNext i (p s) = p (execNext i s) := by
  unfold execNext State.endCycle
  split
  · rw [heff]
    split
    · rfl
    · exact hadv _
  · rw [hpc]
    exact hraise _

theorem State.advance_setRam (u : State) : (u.setRam m).advance = u.advance.setRam m := by
  cases hj : u.flags.j <;> simp [State.advance, State.setRam, hj]

theorem State.advance_setRom (u : State) : (u.setRom m).advance = u.advance.setRom m := by
  cases hj : u.flags.j <;> simp [State.advance, State.setRom, hj]

theorem State.jumpIf_setRam (taken : Bool) (target : Word) :
    (s.setRam m).jumpIf taken target = (s.jumpIf taken target).setRam m := by
  cases taken <;> rfl

theorem State.jumpIf_setRom (taken : Bool) (target : Word) :
    (s.setRom m).jumpIf taken target = (s.jumpIf taken target).setRom m := by
  cases taken <;> rfl

/-- Only LDA, ADD and STA access RAM (20_memory.md R52). -/
theorem execNext_setRam (hlda : ∀ n, i ≠ .lda n) (hadd : ∀ n, i ≠ .add n) (hsta : ∀ n, i ≠ .sta n) :
    execNext i (s.setRam m) = (execNext i s).setRam m := by
  refine execNext_carries ?_ State.advance_setRam rfl fun _ => rfl
  cases i with
  | lda n => exact absurd rfl (hlda n)
  | add n => exact absurd rfl (hadd n)
  | sta n => exact absurd rfl (hsta n)
  | jc | jz => exact State.jumpIf_setRam ..
  | _ => rfl

/-- Only LDR reads ROM in its own data access (20_memory.md R51, R66). -/
theorem execNext_setRom (hldr : ∀ n, i ≠ .ldr n) :
    execNext i (s.setRom m) = (execNext i s).setRom m := by
  refine execNext_carries ?_ State.advance_setRom rfl fun _ => rfl
  cases i with
  | ldr n => exact absurd rfl (hldr n)
  | jc | jz => exact State.jumpIf_setRom ..
  | _ => rfl

theorem step_keeps_rom (h : step s = .next t) : t.rom = s.rom := by
  rcases step_cases h with ⟨-, rfl⟩ | ⟨-, -, rfl⟩ | ⟨-, -, op, -, -, rfl⟩ | ⟨-, -, i, -, hexec⟩
  · rfl
  · rfl
  · rfl
  · rw [exec_next_iff] at hexec
    subst hexec
    exact execNext_rom

end

end Sys2Proof.Machine

/-! ## Memory: the statements -/

namespace Sys2Proof.MemoryProofs

open Sys2Proof Sys2Proof.Machine

/-- Settles O13: the state after the write is the state before with one RAM word written; an STA whose
address is out of range ends in a fault that leaves RAM. -/
theorem memWriteReplacesOneWholeWord : Obligations.MemWriteReplacesOneWholeWord := by
  intro s addr v hwf
  refine ⟨fun hlt => ⟨_, State.memWrite_eq_setRam hlt, rfl, Memory.wf_writeWord v hwf hlt,
    State.memRead_written_self hwf hlt, fun _ hne => State.memRead_written_ne hne⟩,
    fun hge => ⟨State.memWrite_of_le hge, ?_⟩⟩
  intro n t hn h
  rw [exec_next_iff] at h
  subst h hn
  exact execNext_sta_ram_of_le (by rwa [zext16_toNat] at hge)

/-- Settles O40: the words moved and the elements left are read off the normal form; an instruction without
a RAM access carries a change of RAM through. -/
theorem ramTouchedOnlyByLdaAddSta : Obligations.RamTouchedOnlyByLdaAddSta := by
  refine ⟨fun a _ => Memory.readWord_nil a, fun n s t hn h => ?_, fun n s t hn h => ?_,
    fun n s t hn hwf h => ?_, fun i s t h => ?_, fun i s t hsta h => ?_,
    fun i s t m hlda hadd hsta h => ?_⟩ <;> rw [exec_next_iff] at h <;> subst h
  · exact execNext_lda_regA_of_lt hn
  · exact execNext_add_regB_of_lt hn
  · rw [execNext_sta_ram_of_lt hn]
    exact Memory.readWord_writeWord_self s.regA hwf hn
  · exact execNext_rom
  · exact execNext_ram hsta
  · exact exec_next_iff.mpr (execNext_setRam hlda hadd hsta)

/-- Settles O41: no step writes ROM, and an instruction other than LDR carries a change of ROM through. -/
theorem romNeverWrittenAndReadOnlyByLdr : Obligations.RomNeverWrittenAndReadOnlyByLdr := by
  refine ⟨fun s t h => step_keeps_rom h, fun i s t m hldr h => ?_⟩
  rw [exec_next_iff] at h
  subst h
  exact exec_next_iff.mpr (execNext_setRom hldr)

/-- Settles O12: the two sides of the bounds check of `RomRead` and `MemRead`. -/
theorem readsAreBoundsChecked : Obligations.ReadsAreBoundsChecked := fun _ _ =>
  ⟨fun hlt => ⟨State.romRead_of_lt hlt, State.memRead_of_lt hlt⟩,
    fun hge => ⟨State.romRead_of_le hge, State.memRead_of_le hge⟩⟩

end Sys2Proof.MemoryProofs

/-! ## Encoding: the map and its inverse, and what the assembler's loop leaves in ROM -/

namespace Sys2Proof

/-! ### Decode and encode -/

section
variable {w : Word} {i : Instr} {row : OpcodeRow}

/-- The encoding laws of the 14 instructions, gathered. -/
theorem encodingStatement (i : Instr) : Laws.Encoding.Statement i := by
  cases i with
  | nop => exact Laws.Encoding.nop
  | lda n => exact Laws.Encoding.lda n
  | sta n => exact Laws.Encoding.sta n
  | add n => exact Laws.Encoding.add n
  | sub n => exact Laws.Encoding.sub n
  | out => exact Laws.Encoding.out
  | jmp n => exact Laws.Encoding.jmp n
  | jc n => exact Laws.Encoding.jc n
  | jz n => exact Laws.Encoding.jz n
  | hlt => exact Laws.Encoding.hlt
  | ldi n => exact Laws.Encoding.ldi n
  | adi n => exact Laws.Encoding.adi n
  | ldr n => exact Laws.Encoding.ldr n
  | adr n => exact Laws.Encoding.adr n

theorem decode_of_row (h : opcodeRow? (opcodeField w) = some row) :
    decode w = .ok (row.build (operandField w)) := by
  rw [decode, h]

theorem decode_of_noRow (h : opcodeRow? (opcodeField w) = none) :
    decode w = .error (.undefinedOpcode (opcodeField w)) := by
  rw [decode, h]

theorem decode_eq_error_iff :
    decode w = .error (.undefinedOpcode (opcodeField w)) ↔ opcodeRow? (opcodeField w) = none :=
  ⟨fun h => (decode_error h).2, decode_of_noRow⟩

/-- The row that the opcode of `encode i` selects builds `i` again from the operand byte. -/
@[simp] theorem decode_encode (i : Instr) : decode (encode i) = .ok i := by
  obtain ⟨hop, hn, hrow⟩ := encodingStatement i
  obtain ⟨row, hsel, hbuild⟩ := Option.map_eq_some_iff.mp hrow
  rw [decode_of_row (hop ▸ hsel), hn, hbuild]

/-- Encoding a decoded word keeps its opcode; only the operand byte can change. -/
theorem encode_of_decode (h : decode w = .ok i) :
    encode i = instrWord (opcodeField w) (operandOf i) := by
  rw [encode, opcodeOf_of_decode h]

/-- A decoded instruction that takes an operand has the word's. -/
theorem operandOf_of_decode (h : decode w = .ok i) (hi : i ≠ .nop ∧ i ≠ .out ∧ i ≠ .hlt) :
    operandOf i = operandField w := by
  rcases decode_ok h with h | h | h | h | h | h | h | h | h | h | h | h | h | h <;>
    obtain ⟨rfl, -⟩ := h <;> simp_all [operandOf]

/-- The fields of what a row builds: the row's opcode, and the operand byte, which has to be 0 where the row
drops it. -/
theorem fields_build {v : Byte} (hrow : row ∈ opcodeMap) (hv : row.takesOperand = false → v = 0) :
    opcodeOf (row.build v) = row.opcode ∧ operandOf (row.build v) = v := by
  simp only [opcodeMap, List.mem_cons, List.not_mem_nil, or_false] at hrow
  rcases hrow with h | h | h | h | h | h | h | h | h | h | h | h | h | h <;> subst h <;>
    simp_all [opcodeOf, operandOf]

/-- A row's builder followed by the encoder is the row's word. -/
theorem encode_build {v : Byte} (hrow : row ∈ opcodeMap) (hv : row.takesOperand = false → v = 0) :
    encode (row.build v) = instrWord row.opcode v := by
  obtain ⟨hop, hn⟩ := fields_build hrow hv
  rw [encode, hop, hn]

/-- The assembler can write every encoding (30_encoding.md R93). -/
theorem isAssembledWord_encode (i : Instr) : isAssembledWord (encode i) = true := by
  simp [isAssembledWord]

end

/-! ### The fields of a word and the undefined opcodes -/

theorem opcodeField_toNat (w : Word) : (opcodeField w).toNat = w.toNat / 256 := by
  have := w.isLt
  simp only [opcodeField, BitVec.extractLsb'_toNat, Nat.shiftRight_eq_div_pow]
  omega

theorem operandField_toNat (w : Word) : (operandField w).toNat = w.toNat % 256 := rfl

/-- The gaps of the opcode map, as ranges (30_encoding.md R78). -/
theorem opcodeRow?_eq_none_iff_ranges (op : Byte) : opcodeRow? op = none ↔
    (op.toNat = 0x09 ∨ (0x0B ≤ op.toNat ∧ op.toNat ≤ 0x0F) ∨
      (0x12 ≤ op.toNat ∧ op.toNat ≤ 0x1F) ∨ (0x22 ≤ op.toNat ∧ op.toNat ≤ 0xFF)) := by
  have := op.isLt
  rw [opcodeRow?_eq_none]
  simp only [opcodeMap, List.map_cons, List.map_nil, List.mem_cons, List.not_mem_nil, or_false, not_or,
    ← BitVec.toNat_inj, BitVec.reduceToNat]
  omega

end Sys2Proof

namespace Sys2Proof.Machine

/-! ### The assembler's loop over a whole program -/

/-- The instructions that still fit are written in order, and the loop goes on behind them. -/
theorem assembleFrom_program (is : List Instr) (rom : List Word) (rest : List Token)
    (h : rom.length + is.length ≤ 128) :
    assembleFrom rom (is.flatMap instrTokens ++ rest) =
      assembleFrom (rom ++ is.map encode) rest := by
  induction is generalizing rom with
  | nil => simp
  | cons i is ih =>
    rw [List.length_cons] at h
    rw [List.flatMap_cons, List.append_assoc, assembleFrom_instr i rom _ (by omega),
      ih _ (by simp; omega), List.map_cons, List.append_assoc, List.singleton_append]

theorem assemble_sourceText (is : List Instr) :
    assemble (sourceText is) = (assembleFrom [] (is.flatMap instrTokens)).map padImage := by
  rw [assemble, assembleTokens, tokenize_sourceText]

/-- A program that fits becomes its words, padded. -/
theorem assemble_sourceText_of_le {is : List Instr} (h : is.length ≤ 128) :
    assemble (sourceText is) = .ok (padImage (is.map encode)) := by
  have hloop := assembleFrom_program is [] [] (by simpa using h)
  rw [List.append_nil, List.nil_append] at hloop
  rw [assemble_sourceText, hloop]
  rfl

/-- A program split at its 129th instruction fails there: the loop gets that far, and the ROM is full. -/
theorem assemble_sourceText_overflow (pre : List Instr) (i : Instr) (post : List Instr)
    (h : pre.length = 128) : ∃ row, opcodeRow? (opcodeOf i) = some row ∧
      assemble (sourceText (pre ++ i :: post)) = .error ⟨row.mnemonic⟩ := by
  obtain ⟨row, hrow, hfull⟩ := assembleFrom_instr_full i ([] ++ pre.map encode)
    (post.flatMap instrTokens) (by simp [h])
  refine ⟨row, hrow, ?_⟩
  rw [assemble_sourceText, List.flatMap_append, List.flatMap_cons,
    assembleFrom_program pre [] _ (by simp [h]), hfull]
  rfl

/-! ### The image of a successful assembly -/

/-- A successful assembly pads what its loop wrote. -/
theorem assemble_ok {text : List Char} {image : List Word} (h : assemble text = .ok image) :
    ∃ rom, assembleFrom [] (tokenize text) = .ok rom ∧ image = padImage rom := by
  rw [assemble, assembleTokens] at h
  cases hrom : assembleFrom [] (tokenize text) with
  | error e => rw [hrom] at h; cases h
  | ok rom => rw [hrom] at h; cases h; exact ⟨rom, rfl, rfl⟩

theorem length_padImage {rom : List Word} (h : rom.length ≤ 128) : (padImage rom).length = 128 := by
  simp only [padImage, Config.romWords, List.length_append, List.length_replicate]
  omega

theorem mem_padImage {rom : List Word} {w : Word} (h : w ∈ padImage rom) : w ∈ rom ∨ w = 0 :=
  (List.mem_append.mp h).imp_right List.eq_of_mem_replicate

/-- Every word the loop writes into an empty ROM is an instruction's encoding. -/
theorem assembleFrom_nil_mem {tokens : List Token} {rom : List Word} {w : Word}
    (h : assembleFrom [] tokens = .ok rom) (hw : w ∈ rom) : ∃ i, w = encode i := by
  obtain ⟨-, hmem⟩ := assembleFrom_ok h (by simp)
  rcases hmem w hw with h | ⟨row, hrow, v, rfl, hv⟩
  · cases h
  · exact ⟨row.build v, (encode_build hrow hv).symm⟩

/-! ### Operand tokens -/

theorem isDecimalDigit_iff (c : Char) : isDecimalDigit c = true ↔ '0' ≤ c ∧ c ≤ '9' := by
  rw [isDecimalDigit, Bool.and_eq_true, decide_eq_true_eq, decide_eq_true_eq]
  exact Iff.rfl

theorem parseOperand_eq_some_iff (t : Token) (n : Byte) : parseOperand t = some n ↔
    (t ≠ [] ∧ t.all isDecimalDigit = true ∧ decimalValue t = n.toNat) := by
  have hn := n.isLt
  constructor
  · intro h
    rw [parseOperand] at h
    split at h
    next hok =>
      obtain ⟨hne, hall, hle⟩ := hok
      cases h
      exact ⟨hne, hall, (Nat.mod_eq_of_lt (by omega)).symm⟩
    next => cases h
  · rintro ⟨hne, hall, hval⟩
    rw [parseOperand, if_pos ⟨hne, hall, by omega⟩, hval, BitVec.ofNat_toNat, BitVec.setWidth_eq]

/-! ### The loop at a bad token -/

section
variable {rom : List Word} {m t : Token} {rest : List Token} {row : OpcodeRow}

theorem assembleFrom_unknownMnemonic (hm : mnemonicRow? m = none) :
    assembleFrom rom (m :: rest) = .error ⟨m⟩ := by
  simp only [assembleFrom, hm]

theorem assembleFrom_missingOperand (hm : mnemonicRow? m = some row) (hto : row.takesOperand = true) :
    assembleFrom rom [m] = .error ⟨m⟩ := by
  simp only [assembleFrom, hm, hto, if_true]

theorem assembleFrom_malformedOperand (hm : mnemonicRow? m = some row) (hto : row.takesOperand = true)
    (ht : parseOperand t = none) : assembleFrom rom (m :: t :: rest) = .error ⟨t⟩ := by
  simp only [assembleFrom, hm, hto, if_true, ht]

end

end Sys2Proof.Machine

/-! ## Encoding: the statements -/

namespace Sys2Proof.EncodingProofs

open Sys2Proof Sys2Proof.Machine

/-- Settles O1: the row an instruction's opcode selects builds it again. -/
theorem decodeOfEncodeGivesInstruction : Obligations.DecodeOfEncodeGivesInstruction :=
  fun i _ => decode_encode i

/-- Settles O53: the loop writes the instructions that fit; the 129th finds the ROM full. -/
theorem sourceTextAssemblesToEncodings : Obligations.SourceTextAssemblesToEncodings := by
  intro is
  refine ⟨fun hle => ?_, fun hlt => ?_⟩
  · rw [assemble_sourceText_of_le hle, padImage, List.length_map, Config.romWords]
  · have hsplit : is.take 128 ++ is[128] :: is.drop 129 = is := by
      rw [← List.drop_eq_getElem_cons hlt, List.take_append_drop]
    obtain ⟨row, hrow, herr⟩ := assemble_sourceText_overflow (is.take 128) is[128] (is.drop 129)
      (by rw [List.length_take]; omega)
    rw [hsplit] at herr
    exact ⟨is[128], row, List.getElem?_eq_getElem hlt, hrow, herr⟩

/-- Settles O2: the opcode byte is kept, and the operand byte is the word's or, without operand, 0. -/
theorem encodeOfDecodeGivesWordBack : Obligations.EncodeOfDecodeGivesWordBack := by
  intro w i h
  refine ⟨fun hi => ?_, fun hi => ?_⟩
  · rw [encode_of_decode h, operandOf_of_decode h hi, instrWord_fields]
  · rw [encode_of_decode h]
    rcases hi with rfl | rfl | rfl <;> rfl

/-- Settles O3: the decoder rejects where the map has no row, and the gaps of the map are R78's ranges. -/
theorem decoderRejectsExactlyUndefinedOpcodes : Obligations.DecoderRejectsExactlyUndefinedOpcodes :=
  fun _ => decode_eq_error_iff.trans (opcodeRow?_eq_none_iff_ranges _)

/-- Settles O4: whether there is a row depends on the opcode field alone, and a decoded instruction has the
opcode of its word. -/
theorem decoderSplitsWordAndOpcodeSelects : Obligations.DecoderSplitsWordAndOpcodeSelects := by
  intro w
  refine ⟨opcodeField_toNat w, operandField_toNat w, fun w' hop => ?_⟩
  cases hrow : opcodeRow? (opcodeField w) with
  | none => exact .inl ⟨hop ▸ decode_of_noRow (hop ▸ hrow), decode_of_noRow hrow⟩
  | some row =>
    have hw := decode_of_row hrow
    have hw' : decode w' = .ok (row.build (operandField w')) := decode_of_row (hop ▸ hrow)
    exact .inr ⟨_, _, hw, hw', opcodeOf_of_decode hw, (opcodeOf_of_decode hw').trans hop⟩

/-- Settles O54: an image word is an encoding, or the padding 0, which is NOP's. -/
theorem assembledImageHasOnlyAssembledWords : Obligations.AssembledImageHasOnlyAssembledWords := by
  intro text image h
  obtain ⟨rom, hrom, rfl⟩ := assemble_ok h
  have hlen : rom.length ≤ 128 := (assembleFrom_ok hrom (by simp)).1
  refine ⟨beq_iff_eq.mpr (length_padImage hlen), fun w hw => ?_⟩
  rcases mem_padImage hw with hw | rfl
  · obtain ⟨i, rfl⟩ := assembleFrom_nil_mem hrom hw
    exact isAssembledWord_encode i
  · exact isAssembledWord_encode .nop

/-- Settles O56: the digit test is the order on characters, and a byte is a value of at most 255. -/
theorem operandTokenReadAsDecimal : Obligations.OperandTokenReadAsDecimal := by
  intro t n
  simp only [parseOperand_eq_some_iff, List.all_eq_true, isDecimalDigit_iff]

/-- Settles O5: the decoder, run on the ten words. -/
theorem writtenOutWordsDecode : Obligations.WrittenOutWordsDecode :=
  ⟨rfl, rfl, rfl, rfl, rfl, rfl, rfl, rfl, rfl, rfl⟩

/-- Settles O55: the three ways the loop stops at a token it cannot read. -/
theorem badTokenFailsAssembly : Obligations.BadTokenFailsAssembly := by
  intro rom m rest
  refine ⟨assembleFrom_unknownMnemonic, fun row hm hto => ⟨?_, ?_⟩⟩
  · rintro rfl
    exact assembleFrom_missingOperand hm hto
  · rintro t rest' rfl ht
    exact assembleFrom_malformedOperand hm hto ht

end Sys2Proof.EncodingProofs

/-! ## The engine: a step as a total function, where the PC goes, and what an ended run leaves -/

namespace Sys2Proof.Machine

/-! ### Every step answers a state -/

theorem exists_step_eq_next (s : State) : ∃ t, step s = .next t := by
  by_cases hrun : s.run = .running
  · rcases Nat.lt_or_ge s.pc.toNat 128 with hpc | hpc
    · cases hd : decode (Memory.readWord s.rom s.pc.toNat) with
      | ok i => exact ⟨_, (step_of_decode hrun hpc hd).trans (exec_eq_execNext i s)⟩
      | error e =>
        obtain ⟨rfl, -⟩ := decode_error hd
        exact ⟨_, step_of_undefinedOpcode hrun hpc hd⟩
    · exact ⟨_, step_of_fetchFault hrun hpc⟩
  · exact ⟨_, step_of_not_running hrun⟩

/-- The state a step answers.  `step_eq_stepNext` says that the other two outcomes do not occur. -/
def stepNext (s : State) : State :=
  match step s with
  | .next t => t
  | .fault _ => s
  | .refused _ => s

theorem step_eq_stepNext (s : State) : step s = .next (stepNext s) := by
  obtain ⟨t, ht⟩ := exists_step_eq_next s
  rw [stepNext, ht]

theorem stepNext_of_not_running {s : State} (h : s.run ≠ .running) : stepNext s = s :=
  Host.Outcome.next.inj ((step_eq_stepNext s).symm.trans (step_of_not_running h))

/-! ### Bounded runs are iterations of the step -/

/-- The host's run stops early only in a terminal state, which every further step leaves as it is. -/
theorem hostRun_eq_iterate (n : Nat) (s : State) : hostRun n s = .next (stepNext^[n] s) := by
  induction n generalizing s with
  | zero => rfl
  | succ n ih =>
    rw [hostRun]
    split
    · rw [step_eq_stepNext, Function.iterate_succ_apply]
      exact ih _
    · rw [Function.iterate_fixed (stepNext_of_not_running ‹_›)]

/-- The run of any core whose step is a total function. -/
theorem coreRun_eq_iterate (M : Host.Core) {f : M.State → M.State}
    (hstep : ∀ s, M.step s = .next (f s)) (n : Nat) (s : M.State) : M.run n s = .next (f^[n] s) := by
  induction n generalizing s with
  | zero => rfl
  | succ n ih =>
    rw [Host.Core.run, hstep, Function.iterate_succ_apply]
    exact ih _

/-! ### Where the PC goes -/

/-- With J set the advance is the pending jump (40_engine.md R104). -/
theorem State.advance_of_jump {s : State} (h : s.flags.j = true) :
    s.advance = { s with pc := s.regB, flags := { s.flags with j := false } } := if_pos h

/-- The target of a jump that is taken with these flags (43_control.md R160-R162). -/
def takenTarget? : Instr → Flags → Option Byte
  | .jmp n, _ => some n
  | .jc n, f => if f.c then some n else none
  | .jz n, f => if f.z then some n else none
  | _, _ => none

section
variable {i : Instr} {s : State} {n : Byte}

theorem takenTarget?_eq_some {f : Flags} (h : takenTarget? i f = some n) :
    i = .jmp n ∨ (i = .jc n ∧ f.c = true) ∨ (i = .jz n ∧ f.z = true) := by
  cases i with
  | jmp m => cases h; exact .inl rfl
  | jc m =>
    obtain ⟨hc, hm⟩ := Option.ite_none_right_eq_some.mp h
    cases hm; exact .inr (.inl ⟨rfl, hc⟩)
  | jz m =>
    obtain ⟨hz, hm⟩ := Option.ite_none_right_eq_some.mp h
    cases hm; exact .inr (.inr ⟨rfl, hz⟩)
  | _ => cases h

/-- The whole next state of a taken jump. -/
theorem execNext_of_taken (hj : s.flags.j = false) (h : takenTarget? i s.flags = some n) :
    execNext i s = { s with regB := zext16 n, pc := zext16 n } := by
  have hjump : (s.jumpIf true (jumpTarget n)).advance = { s with regB := zext16 n, pc := zext16 n } :=
    State.advance_requestJump s _ hj
  rcases takenTarget?_eq_some h with rfl | ⟨rfl, hc⟩ | ⟨rfl, hz⟩
  · exact hjump
  · rw [← hjump, ← hc]; rfl
  · rw [← hjump, ← hz]; rfl

/-- The effect of an instruction that is no taken jump leaves the PC and J to the advance. -/
theorem execEffect_pc_j_of_notTaken (h : takenTarget? i s.flags = none) :
    (execEffect i s).pc = s.pc ∧ (execEffect i s).flags.j = s.flags.j := by
  have hjump {taken : Bool} {m : Byte} (ht : (if taken then some m else none) = none) :
      (s.jumpIf taken (jumpTarget m)).pc = s.pc ∧
        (s.jumpIf taken (jumpTarget m)).flags.j = s.flags.j := by
    cases taken with
    | true => cases ht
    | false => exact ⟨rfl, rfl⟩
  cases i with
  | jmp => cases h
  | jc | jz => exact hjump h
  | _ => exact ⟨rfl, rfl⟩

theorem execNext_pc_of_notTaken (hj : s.flags.j = false) (hok : dataAddressOk i = true)
    (hi : i ≠ .hlt) (h : takenTarget? i s.flags = none) : (execNext i s).pc = s.pc + 1 := by
  obtain ⟨hpc, hj'⟩ := execEffect_pc_j_of_notTaken h
  rw [execNext_of_ok hok, State.endCycle, if_neg hi, State.advance_of_noJump _ (hj'.trans hj), hpc]

/-- Of a running machine's instructions, HLT and a faulting access end the run, and no other. -/
theorem execNext_running_iff (hrun : s.run = .running) :
    (execNext i s).run = .running ↔ dataAddressOk i = true ∧ i ≠ .hlt := by
  rw [execNext_run, hrun]
  by_cases hi : i = .hlt
  · simp [hi]
  · by_cases hok : dataAddressOk i = true <;> simp [hi, hok]

/-- The PC keeps the address of a HLT (decision D7) and of a faulting instruction (decision D4). -/
theorem execNext_pc_of_ended (hrun : s.run = .running) (h : (execNext i s).run ≠ .running) :
    (execNext i s).pc = s.pc := by
  by_cases hok : dataAddressOk i = true
  · have hi : i = .hlt := by
      by_contra hi
      exact h ((execNext_running_iff hrun).mpr ⟨hok, hi⟩)
    subst hi; rfl
  · rw [execNext_of_fault (by simpa using hok)]; rfl

end

/-- From a PC inside ROM the successor does not wrap. -/
theorem toNat_succ_of_lt {pc : Word} (h : pc.toNat < 128) : (pc + 1).toNat = pc.toNat + 1 := by
  rw [BitVec.toNat_add]
  exact Nat.mod_eq_of_lt (Nat.lt_trans (Nat.succ_lt_succ h) (by decide))

/-! ### The end of a run -/

section
variable {s : State}

theorem State.exitStatus_eq_zero_iff : s.exitStatus = some .zero ↔ s.run = .halted := by
  unfold State.exitStatus
  cases s.run <;> simp

theorem State.exitStatus_eq_nonZero_iff : s.exitStatus = some .nonZero ↔ s.run = .faulted := by
  unfold State.exitStatus
  cases s.run <;> simp

theorem State.runResult_eq_none_iff : s.runResult = none ↔ s.run = .running := by
  unfold State.runResult
  cases s.run <;> simp

/-- Whichever way the run ended, the result is read off the state (40_engine.md R112). -/
theorem State.eq_of_runResult_eq_some {r : RunResult} (h : s.runResult = some r) :
    r = ⟨s.out, s.regA, s.regB, s.flags.c, s.flags.z, s.pc, s.ram, s.fault⟩ := by
  unfold State.runResult at h
  split at h
  · cases h
  · exact (Option.some.inj h).symm
  · exact (Option.some.inj h).symm

end

end Sys2Proof.Machine

/-! ## The engine: the statements -/

namespace Sys2Proof.EngineProofs

open Sys2Proof Sys2Proof.Machine

/-- Settles O33: each branch of the cycle ends in a next state, and so does each instruction. -/
theorem everyStepAnswersNextState : Obligations.EveryStepAnswersNextState :=
  ⟨exists_step_eq_next, fun i s => ⟨_, exec_eq_execNext i s⟩⟩

/-- Settles O46: a fault and HLT keep the PC; any other instruction is a taken jump or increments it. -/
theorem nextPcIsTargetOrSuccessor : Obligations.NextPcIsTargetOrSuccessor := by
  intro s t hj hrun h
  rcases step_cases h with ⟨hstop, -⟩ | ⟨-, -, rfl⟩ | ⟨-, -, op, -, -, rfl⟩ | ⟨-, hpc, i, hd, hexec⟩
  · exact absurd hrun hstop
  · exact ⟨fun _ => rfl, nofun⟩
  · exact ⟨fun _ => rfl, nofun⟩
  · rw [exec_next_iff] at hexec
    subst hexec
    refine ⟨execNext_pc_of_ended hrun, fun hgoes => ?_⟩
    obtain ⟨hok, hi⟩ := (execNext_running_iff hrun).mp hgoes
    rw [hd]
    cases htarget : takenTarget? i s.flags with
    | some n =>
      rw [execNext_of_taken hj htarget]
      refine .inl ⟨n, rfl, rfl, ?_⟩
      simpa only [Except.ok.injEq] using takenTarget?_eq_some htarget
    | none =>
      rw [execNext_pc_of_notTaken hj hok hi htarget, toNat_succ_of_lt hpc]
      exact .inr ⟨rfl, hpc⟩

/-- Settles O58: both runs are the `n`-th iterate of the step, and iterates compose. -/
theorem boundedRunIsIteratedStep : Obligations.BoundedRunIsIteratedStep := by
  intro n s
  refine ⟨_, hostRun_eq_iterate n s, coreRun_eq_iterate core step_eq_stepNext n s, fun m => ?_⟩
  rw [hostRun_eq_iterate, hostRun_eq_iterate, Nat.add_comm, Function.iterate_add_apply]

/-- Settles O16: the two branches of the PC sequencer. -/
theorem advanceLoadsTargetOrIncrements : Obligations.AdvanceLoadsTargetOrIncrements := by
  refine fun s => ⟨State.advance_of_jump, fun hj => ?_⟩
  rw [State.advance_of_noJump s hj]
  exact ⟨rfl, BitVec.toNat_add ..⟩

/-- Settles O31: the cycle of a running machine, its fetch and its decode given as successful. -/
theorem stepRunsDecodedInstruction : Obligations.StepRunsDecodedInstruction :=
  fun _ _ hrun hpc hd => step_of_decode hrun hpc hd

/-- Settles O32: neither terminal state is Running. -/
theorem terminalStatesTakeNoCycle : Obligations.TerminalStatesTakeNoCycle := by
  intro s hend
  refine step_of_not_running fun hrun => ?_
  rcases hend with h | h <;> cases h.symm.trans hrun

/-- Settles O34: the fetch itself raises the fault, before anything is decoded. -/
theorem fetchOutsideRomFaults : Obligations.FetchOutsideRomFaults :=
  fun _ hrun hpc => step_of_fetchFault hrun hpc

/-- Settles O59: the status is read off `run`, and the result off the state. -/
theorem endOfRunReportsStatusAndResult : Obligations.EndOfRunReportsStatusAndResult := by
  refine fun s => ⟨State.exitStatus_eq_zero_iff, State.exitStatus_eq_nonZero_iff,
    State.runResult_eq_none_iff.symm, fun r h => ?_⟩
  cases State.eq_of_runResult_eq_some h
  exact ⟨rfl, rfl, rfl, rfl, rfl, rfl, rfl, rfl⟩

end Sys2Proof.EngineProofs

/-! ## Single instructions: their encoding, and the two ends of a cycle that is no taken jump -/

namespace Sys2Proof.Machine

/-- The encoding clause of an instruction with an operand, from the row its mnemonic selects. -/
theorem encodedAs_of_row {mnemonic : Token} {row : OpcodeRow} (hm : mnemonicRow? mnemonic = some row)
    (hto : row.takesOperand = true) : EncodedAs row.opcode mnemonic row.build := by
  intro n
  have henc : encode (row.build n) = instrWord row.opcode n :=
    encode_build (List.mem_of_find?_eq_some hm) (by simp [hto])
  exact ⟨henc, henc ▸ decode_encode _, fun _ ht => assembleTokens_operand hm hto ht⟩

section
variable {i : Instr} {s : State}

/-- An instruction that neither faults, nor halts, nor jumps has its effect and increments the PC. -/
theorem exec_of_notTaken (hj : s.flags.j = false) (hok : dataAddressOk i = true) (hi : i ≠ .hlt)
    (h : takenTarget? i s.flags = none) :
    exec i s = .next { execEffect i s with pc := s.pc + 1 } := by
  obtain ⟨hpc, hj'⟩ := execEffect_pc_j_of_notTaken h
  rw [exec_eq_execNext, execNext_of_ok hok, State.endCycle, if_neg hi,
    State.advance_of_noJump _ (hj'.trans hj), hpc]

/-- A data access that names no cell ends the cycle in its AddressFault (60_exceptions.md R202, R205). -/
theorem exec_of_dataFault (h : dataAddressOk i = false) :
    exec i s = .next (s.raise (dataFault i s.pc)) := by
  rw [exec_eq_execNext, execNext_of_fault h]

end

end Sys2Proof.Machine

/-! ## Loads and stores: the statements -/

namespace Sys2Proof.LoadStoreProofs

open Sys2Proof Sys2Proof.Machine

/-- Settles O18: the bounds check of the operand decides between the load and the fault. -/
theorem ldaLoadsRamWord : Obligations.LdaLoadsRamWord := by
  refine ⟨encodedAs_of_row (row := ⟨0x01, _, true, .lda⟩) rfl rfl,
    fun n s => ⟨fun hlt hj => ?_, fun hge => ?_⟩⟩
  · exact exec_of_notTaken hj (decide_eq_true hlt) nofun rfl
  · exact exec_of_dataFault (decide_eq_false (Nat.not_lt.mpr hge))

/-- Settles O19: as for LDA, with the word read from ROM. -/
theorem ldrLoadsRomWord : Obligations.LdrLoadsRomWord := by
  refine ⟨encodedAs_of_row (row := ⟨0x20, _, true, .ldr⟩) rfl rfl,
    fun n s => ⟨fun hlt hj => ?_, fun hge => ?_⟩⟩
  · exact exec_of_notTaken hj (decide_eq_true hlt) nofun rfl
  · exact exec_of_dataFault (decide_eq_false (Nat.not_lt.mpr hge))

/-- Settles O21: the new RAM is the old one with one word written, which the laws of memory then read. -/
theorem staStoresAccumulator : Obligations.StaStoresAccumulator := by
  refine ⟨encodedAs_of_row (row := ⟨0x02, _, true, .sta⟩) rfl rfl,
    fun n s => ⟨fun hlt hj hwf => ?_, fun hge => ?_⟩⟩
  · exact ⟨Memory.writeWord s.ram n.toNat s.regA,
      exec_of_notTaken hj (decide_eq_true hlt) nofun rfl,
      Memory.readWord_writeWord_self s.regA hwf hlt,
      fun a hne => Memory.readWord_writeWord_ne s.ram s.regA hne⟩
  · exact exec_of_dataFault (decide_eq_false (Nat.not_lt.mpr hge))

/-- Settles O20: LDI makes no data access, and the zero extension keeps the operand's value. -/
theorem ldiLoadsZeroExtendedOperand : Obligations.LdiLoadsZeroExtendedOperand :=
  ⟨encodedAs_of_row (row := ⟨0x10, _, true, .ldi⟩) rfl rfl, fun n _ hj =>
    ⟨immediate n, immediate_toNat n, exec_of_notTaken hj rfl nofun rfl⟩⟩

end Sys2Proof.LoadStoreProofs

/-! ## Arithmetic: the ALU's flags as facts about the sum, and the addition of a word through regB -/

namespace Sys2Proof.Machine

section
variable (a b : Word)

theorem aluCarry_eq_decide :
    aluCarry a b = decide (a.toNat > 0 ∧ b.toNat > 0xFFFF - a.toNat) := (Bool.decide_and _ _).symm

/-- The source's carry rule is the carry out of bit 15 (42_arithmetic.md R141). -/
theorem aluCarry_iff_le_sum : aluCarry a b = true ↔ 65536 ≤ a.toNat + b.toNat := by
  have hb := b.isLt
  rw [aluCarry_iff]
  omega

theorem aluCarry_eq_false_iff : aluCarry a b = false ↔ a.toNat + b.toNat < 65536 := by
  rw [← Bool.not_eq_true, aluCarry_iff_le_sum, Nat.not_le]

theorem aluCarry_comm : aluCarry a b = aluCarry b a := by
  rw [Bool.eq_iff_iff, aluCarry_iff_le_sum, aluCarry_iff_le_sum, Nat.add_comm]

theorem aluZero_aluSum_eq_false_iff :
    aluZero (aluSum a b) = false ↔ (a.toNat + b.toNat) % 65536 ≠ 0 := by
  rw [← Bool.not_eq_true, aluZero_aluSum_iff]

end

/-- What ADD and ADI do with their second operand, whole: it goes through regB into the ALU
(42_arithmetic.md R140, R142, R143). -/
theorem State.aluAddRegs_setRegB {s : State} (v : Word) (hj : s.flags.j = false) :
    (s.setRegB v).aluAddRegs = { s with
      regB := v
      regA := s.regA + v
      flags := ⟨decide (s.regA.toNat > 0 ∧ v.toNat > 0xFFFF - s.regA.toNat),
        decide (s.regA + v = 0), false⟩ } := by
  rw [← aluCarry_eq_decide, ← hj]
  rfl

end Sys2Proof.Machine

/-! ## Arithmetic: the statements -/

namespace Sys2Proof.ArithmeticProofs

open Sys2Proof Sys2Proof.Machine

/-- Settles O15: carry and zero are facts about the sum of two values below 65536, which is below 131072. -/
theorem carryIsBit16OfSum : Obligations.CarryIsBit16OfSum := by
  intro a b
  have ha := a.isLt
  have hb := b.isLt
  refine ⟨aluCarry_iff_le_sum a b, aluCarry_comm a b, ?_, ?_, ?_⟩
  · rw [aluCarry_iff_le_sum, aluZero_aluSum_iff]
    omega
  · rw [aluCarry_eq_false_iff, aluZero_aluSum_iff]
    bv_omega
  · rw [aluCarry_iff_le_sum, aluZero_aluSum_eq_false_iff]
    omega

/-- Settles O22: the bounds check of the operand decides between the addition and the fault. -/
theorem addAddsRamWord : Obligations.AddAddsRamWord := by
  refine ⟨encodedAs_of_row (row := ⟨0x03, _, true, .add⟩) rfl rfl,
    fun n s => ⟨fun hlt hj => ?_, fun hge => ?_⟩⟩
  · rw [exec_of_notTaken (i := .add n) hj (decide_eq_true hlt) nofun rfl, execEffect,
      State.aluAddRegs_setRegB _ hj]
  · exact exec_of_dataFault (decide_eq_false (Nat.not_lt.mpr hge))

/-- Settles O14: the laws of the sum and of its two flags, and J, which the ALU does not write. -/
theorem aluAddFollowsSourceRule : Obligations.AluAddFollowsSourceRule :=
  ⟨fun a b f => ⟨aluSum_toNat a b, aluCarry_iff a b, aluZero_aluSum_iff a b, aluAdd_j a b f⟩,
    fun _ => rfl⟩

/-- Settles O23: ADI makes no data access, and the zero extension keeps the operand's value. -/
theorem adiAddsImmediate : Obligations.AdiAddsImmediate := by
  refine ⟨encodedAs_of_row (row := ⟨0x11, _, true, .adi⟩) rfl rfl,
    fun n s hj => ⟨immediate n, immediate_toNat n, ?_⟩⟩
  rw [exec_of_notTaken (i := .adi n) hj rfl nofun rfl, execEffect, State.aluAddRegs_setRegB _ hj,
    immediate_toNat]

/-- Settles O24: SUB makes no data access and has no effect, which leaves the increment of the PC. -/
theorem subIsNoOperation : Obligations.SubIsNoOperation :=
  ⟨encodedAs_of_row (row := ⟨0x04, _, true, .sub⟩) rfl rfl,
    fun _ _ hj => exec_of_notTaken hj rfl nofun rfl⟩

/-- Settles O25: as for SUB. -/
theorem adrIsNoOperation : Obligations.AdrIsNoOperation :=
  ⟨encodedAs_of_row (row := ⟨0x21, _, true, .adr⟩) rfl rfl,
    fun _ _ hj => exec_of_notTaken hj rfl nofun rfl⟩

end Sys2Proof.ArithmeticProofs

/-! ## Control transfer: the two ends of a conditional jump, and the step of a taken jump -/

namespace Sys2Proof.Machine

section
variable {i : Instr} {s : State} {n : Byte}

/-- `execNext_of_taken` as an answer of `exec`. -/
theorem exec_of_taken (hj : s.flags.j = false) (h : takenTarget? i s.flags = some n) :
    exec i s = .next { s with regB := zext16 n, pc := zext16 n } := by
  rw [exec_eq_execNext, execNext_of_taken hj h]

/-- Both ends of a cycle that asks for a jump under a condition (43_control.md R161, R162). -/
theorem exec_of_jumpIf {taken : Bool} (hj : s.flags.j = false)
    (h : exec i s = .next (s.jumpIf taken (jumpTarget n)).advance) :
    (taken = true → exec i s = .next { s with regB := zext16 n, pc := zext16 n }) ∧
    (taken = false → exec i s = .next { s with pc := s.pc + 1 }) := by
  constructor <;> rintro rfl
  · exact h.trans (congrArg _ (State.advance_requestJump s _ hj))
  · exact h.trans (congrArg _ (State.advance_of_noJump s hj))

/-- The step of a running machine whose PC is at a taken jump. -/
theorem step_of_taken (hj : s.flags.j = false) (hrun : s.run = .running) (hpc : s.pc.toNat < 128)
    (hd : decode (Memory.readWord s.rom s.pc.toNat) = .ok i) (h : takenTarget? i s.flags = some n) :
    step s = .next { s with regB := zext16 n, pc := zext16 n } :=
  (step_of_decode hrun hpc hd).trans (exec_of_taken hj h)

end

end Sys2Proof.Machine

/-! ## Control transfer: the statements -/

namespace Sys2Proof.ControlProofs

open Sys2Proof Sys2Proof.Machine

/-- Settles O27: JMP is a jump taken with any flags, and its target of 128 or more is a PC outside ROM. -/
theorem jmpLoadsPcWithTarget : Obligations.JmpLoadsPcWithTarget := by
  refine ⟨encodedAs_of_row (row := ⟨0x06, _, true, .jmp⟩) rfl rfl, fun n s hj =>
    ⟨zext16 n, _, zext16_toNat n, exec_of_taken hj rfl, rfl, fun hge hrun => ?_⟩⟩
  exact step_of_fetchFault hrun (hge.trans_eq (zext16_toNat n).symm)

/-- Settles O28: JC asks for its jump under the condition C. -/
theorem jcJumpsExactlyOnCarry : Obligations.JcJumpsExactlyOnCarry :=
  ⟨encodedAs_of_row (row := ⟨0x07, _, true, .jc⟩) rfl rfl,
    fun _ s hj => exec_of_jumpIf (taken := s.flags.c) hj rfl⟩

/-- Settles O29: JZ asks for its jump under the condition Z. -/
theorem jzJumpsExactlyOnZero : Obligations.JzJumpsExactlyOnZero :=
  ⟨encodedAs_of_row (row := ⟨0x08, _, true, .jz⟩) rfl rfl,
    fun _ s hj => exec_of_jumpIf (taken := s.flags.z) hj rfl⟩

/-- Settles O47: the jump leaves ROM and the run state, so the next cycle fetches the target's word. -/
theorem takenJumpHasNoDelaySlot : Obligations.TakenJumpHasNoDelaySlot := by
  intro s n i hj hrun hpc hn hjump hi
  obtain ⟨jump, hd, htaken⟩ : ∃ jump, decode (Memory.readWord s.rom s.pc.toNat) = .ok jump ∧
      takenTarget? jump s.flags = some n := by
    rcases hjump with hd | ⟨hd, hc⟩ | ⟨hd, hz⟩
    · exact ⟨_, hd, rfl⟩
    · exact ⟨_, hd, if_pos hc⟩
    · exact ⟨_, hd, if_pos hz⟩
  rw [← zext16_toNat n] at hn hi
  exact ⟨_, step_of_taken hj hrun hpc hd htaken, rfl, step_of_decode hrun hn hi⟩

end Sys2Proof.ControlProofs

/-! ## System and output: instructions without operand, and decimal text -/

namespace Sys2Proof.Machine

/-- The encoding clause of an instruction without operand, from its row, which opcode and mnemonic both
select and which builds it from every operand byte. -/
theorem encodedPlain_of_row {mnemonic : Token} {row : OpcodeRow} {i : Instr}
    (hop : opcodeRow? row.opcode = some row) (hm : mnemonicRow? mnemonic = some row)
    (hto : row.takesOperand = false) (hbuild : ∀ n, row.build n = i) :
    EncodedPlain row.opcode mnemonic i := by
  refine ⟨?_, fun n => ?_, assembleTokens_plain hm hto⟩
  · rw [← hbuild 0]
    exact encode_build (List.mem_of_find?_eq_some hm) fun _ => rfl
  · rw [decode_instrWord, hop, ← hbuild n]

/-- The first digit of a non-zero number is the number itself below 10, and that of `n / 10` from 10 on. -/
theorem toDigits_eq_cons_ne_zero {n : Nat} (hn : n ≠ 0) :
    ∃ c rest, Nat.toDigits 10 n = c :: rest ∧ c ≠ '0' := by
  induction n using Nat.strongRecOn with
  | ind n ih =>
    by_cases hlt : n < 10
    · exact ⟨n.digitChar, [], Nat.toDigits_of_lt_base hlt, mt Nat.digitChar_eq_zero.mp hn⟩
    · obtain ⟨c, rest, hdigits, hc⟩ := ih (n / 10) (by omega) (by omega)
      refine ⟨c, rest ++ [(n % 10).digitChar], ?_, hc⟩
      rw [Nat.toDigits_of_base_le (by decide) (Nat.not_lt.mp hlt), hdigits, List.cons_append]

section
variable (v : Word)

theorem decimalValue_renderValue : decimalValue (renderValue v) = v.toNat := decimalValue_toDigits _

theorem digit_of_mem_renderValue {c : Char} (h : c ∈ renderValue v) : '0' ≤ c ∧ c ≤ '9' :=
  (isDecimalDigit_iff c).mp (List.all_eq_true.mp (all_isDecimalDigit_toDigits _) c h)

theorem renderValue_zero : renderValue 0 = ['0'] := Nat.toDigits_zero 10

theorem renderValue_eq_cons_ne_zero (h : v ≠ 0) :
    ∃ c rest, renderValue v = c :: rest ∧ c ≠ '0' :=
  toDigits_eq_cons_ne_zero fun h0 => h (BitVec.eq_of_toNat_eq h0)

end

/-- Appending a value to the output appends one line to the console. -/
theorem renderConsole_of_out_append {s t : State} {v : Word} (h : t.out = s.out ++ [v]) :
    renderConsole t = renderConsole s ++ [renderValue v] := by
  rw [renderConsole, h, List.map_append, renderConsole, List.map_singleton]

end Sys2Proof.Machine

/-! ## System and output: the statements -/

namespace Sys2Proof.SystemProofs

open Sys2Proof Sys2Proof.Machine

/-- Settles O60: the laws of decimal text at a word's value, and the one value that OUT appends. -/
theorem consoleRendersDecimalWithoutLeadingZeros :
    Obligations.ConsoleRendersDecimalWithoutLeadingZeros := by
  refine ⟨fun v => ⟨decimalValue_renderValue v, fun _ => digit_of_mem_renderValue v, ?_,
    renderValue_eq_cons_ne_zero v⟩, fun s => ⟨rfl, _, exec_eq_execNext .out s, ?_⟩⟩
  · rintro rfl
    exact renderValue_zero
  · exact renderConsole_of_out_append execNext_out_of_out

/-- Settles O17: NOP makes no data access and has no effect, which leaves the increment of the PC. -/
theorem nopOnlyAdvances : Obligations.NopOnlyAdvances :=
  ⟨encodedPlain_of_row (row := ⟨0x00, _, false, fun _ => .nop⟩) rfl rfl rfl fun _ => rfl,
    fun _ hj => exec_of_notTaken hj rfl nofun rfl⟩

/-- Settles O26: as for NOP, with the effect of appending regA to the output. -/
theorem outEmitsAccumulator : Obligations.OutEmitsAccumulator :=
  ⟨encodedPlain_of_row (row := ⟨0x05, _, false, fun _ => .out⟩) rfl rfl rfl fun _ => rfl,
    fun _ hj => exec_of_notTaken hj rfl nofun rfl⟩

/-- Settles O30: HLT is the one instruction that ends its cycle without the PC advance, in a state that
takes no further cycle. -/
theorem hltHaltsWithoutAdvance : Obligations.HltHaltsWithoutAdvance :=
  ⟨encodedPlain_of_row (row := ⟨0x0A, _, false, fun _ => .hlt⟩) rfl rfl rfl fun _ => rfl,
    fun s => ⟨exec_eq_execNext .hlt s, step_of_not_running nofun⟩⟩

end Sys2Proof.SystemProofs

/-! ## Exceptions: the safe cycles, and the record of an unsafe one -/

namespace Sys2Proof.Machine

/-! ### Which cycles are safe -/

section
variable {s : State}

theorem State.cycleSafe_of_le (hpc : 128 ≤ s.pc.toNat) : s.cycleSafe = false := by
  rw [State.cycleSafe, romWords_eq, decide_eq_false (Nat.not_lt.mpr hpc), Bool.false_and]

theorem State.cycleSafe_of_decode_error {e : DecodeError}
    (hd : decode (Memory.readWord s.rom s.pc.toNat) = .error e) : s.cycleSafe = false := by
  rw [State.cycleSafe, hd, Bool.and_false]

theorem State.cycleSafe_of_decode {i : Instr} (hpc : s.pc.toNat < 128)
    (hd : decode (Memory.readWord s.rom s.pc.toNat) = .ok i) : s.cycleSafe = dataAddressOk i := by
  rw [State.cycleSafe, hd, romWords_eq, decide_eq_true hpc, Bool.true_and]

end

/-! ### The records of the faults taken before dispatch -/

theorem wf_ofAddressFault_fetch {pc : Word} (h : 128 ≤ pc.toNat) :
    (FaultRecord.ofAddressFault .fetch pc pc none).wf = true := by
  simp [FaultRecord.wf, FaultRecord.ofAddressFault, h]

theorem wf_ofIllegalOpcode {op : Byte} (pc : Word) (h : opcodeRow? op = none) :
    (FaultRecord.ofIllegalOpcode pc op).wf = true := by
  simp [FaultRecord.wf, FaultRecord.ofIllegalOpcode, h]

/-! ### The two ends of a cycle -/

/-- A running machine's unsafe cycle raises a fault from the state before it, and its safe cycle ends
otherwise (60_exceptions.md R201-R206). -/
theorem step_raises_or_safe {s t : State} (hrun : s.run = .running) (h : step s = .next t) :
    (s.cycleSafe = false ∧ ∃ r, t = s.raise r ∧ r.wf = true ∧ r.pc = s.pc) ∨
      (s.cycleSafe = true ∧ t.run ≠ .faulted) := by
  rcases step_cases h with ⟨hstop, -⟩ | ⟨-, hpc, ht⟩ | ⟨-, -, op, hd, hrow, ht⟩ | ⟨-, hpc, i, hd, hexec⟩
  · exact absurd hrun hstop
  · exact .inl ⟨State.cycleSafe_of_le hpc, _, ht, wf_ofAddressFault_fetch hpc, rfl⟩
  · exact .inl ⟨State.cycleSafe_of_decode_error hd, _, ht, wf_ofIllegalOpcode _ hrow, rfl⟩
  · rw [State.cycleSafe_of_decode hpc hd]
    rcases exec_cases hexec with ⟨rfl, rfl⟩ | ⟨hbad, kind, addr, ht, hwf⟩ |
      ⟨hok, -, u, rfl, -, -, hurun, -⟩
    · exact .inr ⟨rfl, nofun⟩
    · exact .inl ⟨hbad, _, ht, hwf, rfl⟩
    · refine .inr ⟨hok, ?_⟩
      rw [State.advance_run, hurun, hrun]
      nofun

end Sys2Proof.Machine

/-! ## Exceptions: the statements -/

namespace Sys2Proof.ExceptionProofs

open Sys2Proof Sys2Proof.Machine

/-- Settles O36: a raised fault ends Faulted, and a safe cycle does not. -/
theorem cycleFaultsExactlyWhenUnsafe : Obligations.CycleFaultsExactlyWhenUnsafe := by
  intro s t hrun h
  rcases step_raises_or_safe hrun h with ⟨hunsafe, r, rfl, -, -⟩ | ⟨hsafe, hgoes⟩
  · exact iff_of_true rfl hunsafe
  · exact iff_of_false hgoes (ne_false_of_eq_true hsafe)

/-- Settles O37: the only cycle that ends Faulted is one that raises a fault from the state before it. -/
theorem faultingCycleWritesNothing : Obligations.FaultingCycleWritesNothing := by
  intro s t hrun h hfaulted
  rcases step_raises_or_safe hrun h with ⟨-, hraised⟩ | ⟨-, hgoes⟩
  · exact hraised
  · exact absurd hfaulted hgoes

/-- Settles O35: the decoder rejects an opcode without a row, and names it. -/
theorem undefinedOpcodeFaults : Obligations.UndefinedOpcodeFaults :=
  fun _ hrun hpc hrow => step_of_undefinedOpcode hrun hpc (decode_of_noRow hrow)

end Sys2Proof.ExceptionProofs

/-! ## Power-on and boot: what ROM holds, and the first cycle -/

namespace Sys2Proof.Machine

/-! ### The ROM after power-on -/

/-- The ROM load fills the 128 words and leaves no cell outside them (70_reset_and_hazards.md R240). -/
theorem wf_rom_powerOn (image : List Word) :
    Memory.wf Config.romWords (State.powerOn image).rom = true :=
  Memory.wf_ofWords _ (List.length_take_le _ _)

/-- An image that fits is loaded whole, and the slots past its end read 0 (20_memory.md R62). -/
theorem readWord_rom_powerOn {image : List Word} (h : image.length ≤ 128) (a : Nat) :
    Memory.readWord (State.powerOn image).rom a = image.getD a 0 := by
  rw [State.powerOn, romWords_eq, List.take_of_length_le h, Memory.readWord_ofWords]

/-- An assembled image is a ROM image: it has the 128 words of 30_encoding.md R80. -/
theorem length_of_assemble_ok {text : List Char} {image : List Word} (h : assemble text = .ok image) :
    image.length = 128 :=
  beq_iff_eq.mp (EncodingProofs.assembledImageHasOnlyAssembledWords text image h).1

/-! ### The two ends of a boot -/

section
variable {text : List Char}

theorem boot_of_error {e : AssemblyError} (h : assemble text = .error e) : boot text = .error e := by
  rw [boot, h]
  rfl

theorem boot_of_ok {image : List Word} (h : assemble text = .ok image) :
    boot text = .ok (State.powerOn image) := by
  rw [boot, h]
  rfl

theorem bootExitStatus_of_error {e : AssemblyError} (h : assemble text = .error e) :
    bootExitStatus text = some .nonZero := by
  rw [bootExitStatus, h]

theorem bootExitStatus_of_ok {image : List Word} (h : assemble text = .ok image) :
    bootExitStatus text = none := by
  rw [bootExitStatus, h]

end

end Sys2Proof.Machine

/-! ## Power-on and boot: the statements -/

namespace Sys2Proof.ResetProofs

open Sys2Proof Sys2Proof.Machine

/-- Settles O9: the loaded ROM is canonical, and every other clause is the reset state's own. -/
theorem powerOnMeetsInvariant : Obligations.PowerOnMeetsInvariant := fun image =>
  { StateProofs.resetMeetsInvariant with romWf := wf_rom_powerOn image }

/-- Settles O11: the PC is 0 after reset, so the first fetch reads the image's word 0. -/
theorem powerOnLoadsImageAndFetchesWordZero : Obligations.PowerOnLoadsImageAndFetchesWordZero := by
  intro image hlen
  have hpc : (State.powerOn image).pc.toNat = 0 := rfl
  refine ⟨readWord_rom_powerOn hlen, rfl, ?_⟩
  rw [step_running rfl, cycle_of_lt (by omega), hpc, readWord_rom_powerOn hlen]

/-- Settles O57: a boot ends as the assembly does, and an assembled image fits in ROM. -/
theorem bootStopsOnAssemblyErrorOrPowersOn : Obligations.BootStopsOnAssemblyErrorOrPowersOn := by
  refine fun text => ⟨fun e herr => ⟨boot_of_error herr, bootExitStatus_of_error herr⟩, fun image hok => ?_⟩
  have hlen : image.length ≤ 128 := (length_of_assemble_ok hok).le
  exact ⟨bootExitStatus_of_ok hok, State.powerOn image, boot_of_ok hok, rfl, rfl,
    powerOnMeetsInvariant image, rfl, readWord_rom_powerOn hlen⟩

end Sys2Proof.ResetProofs
